-- ==== Sys2Proof/Word.lean ====
section
/-! DEFINITION. The bit vectors of the block (00_scope.md section 6: every quantity is an unsigned bit vector, bit 0
the least significant). -/

namespace Sys2Proof

/-- A 32-bit word: the register `state`, a table word, a response (R4). -/
abbrev Word := BitVec 32

/-- An 8-bit input byte (R4, R27). -/
abbrev Byte := BitVec 8

/-- A 4-bit nibble, also a table index (R4, R26). -/
abbrev Nibble := BitVec 4

/-- A command word `cmd[9:0]` (R41). -/
abbrev CmdWord := BitVec 10

end Sys2Proof
end

