-- ==== Sys2Proof/Syntax.lean ====
section
/-! DEFINITION. The commands of the block, one constructor per row of spec/opcode_table.json. -/

namespace Sys2Proof

/-- What a 10-bit command word decodes to (R42, R45). -/
inductive Instr where
  /-- `RESET` (R52). It has no operand: its `data` field is ignored (R44). -/
  | reset
  /-- `UPDATE b` (R53): the byte `b` is the whole `data` field, any of its 256 values. -/
  | update (b : Byte)
  /-- `FINALIZE` (R54). It has no operand: its `data` field is ignored (R44). -/
  | finalize
  /-- The decoder's verdict `Reserved` on `op = 0b11` (R43): no command of the block. -/
  | reservedOp3
  deriving DecidableEq, Repr

end Sys2Proof
end

