-- ==== Sys2Proof/WellFormed.lean ====
section
/-! DEFINITION. Which terms of `Instr` are commands of the block. -/

namespace Sys2Proof

/-- The three commands are well formed with every operand; the reserved verdict is not a command (R43, R86). -/
def Instr.wf : Instr → Bool
  | .reset => true
  | .update _ => true
  | .finalize => true
  | .reservedOp3 => false

end Sys2Proof
end

