-- ==== Sys2Proof/Decode.lean ====
section
/-! DEFINITION. The decoder and the encoder of command words (30_encoding.md R41 to R45). -/

namespace Sys2Proof

/-- `op = cmd[9:8]` (R41). -/
def opField (w : CmdWord) : BitVec 2 := w.extractLsb' 8 2

/-- `data = cmd[7:0]` (R41). -/
def dataField (w : CmdWord) : Byte := w.extractLsb' 0 8

/-- The decoder: total on 10-bit words, the reserved words answered by the verdict `reservedOp3` (R43, R45). -/
def decode (w : CmdWord) : Instr :=
  match opField w with
  | 0b00#2 => .reset
  | 0b01#2 => .update (dataField w)
  | 0b10#2 => .finalize
  | _ => .reservedOp3

/-- The command word with the given fields (R41). -/
def cmdWord (op : BitVec 2) (data : Byte) : CmdWord := op ++ data

/-- The encoder: the canonical word of a command (R44, R45, R47); the reserved verdict has none. -/
def encode : Instr → Option CmdWord
  | .reset => some (cmdWord 0b00#2 0#8)
  | .update b => some (cmdWord 0b01#2 b)
  | .finalize => some (cmdWord 0b10#2 0#8)
  | .reservedOp3 => none

/-- A canonical word: one whose ignored bits are zero (R44). -/
def canonical (w : CmdWord) : Bool := opField w == 0b01#2 || dataField w == 0#8

/-- Why a number is no command word. -/
inductive DecodeError where
  /-- It does not fit in the 10 bits of a command word (R41: every command is exactly 10 bits). -/
  | widerThanTenBits
  deriving DecidableEq, Repr

/-- The command word with the bits of the number `w`, refused by name when a bit above bit 9 is set (R41). -/
def toCmdWord (w : Nat) : Except DecodeError CmdWord :=
  if w < 2 ^ 10 then .ok (BitVec.ofNat 10 w) else .error .widerThanTenBits

/-- The decoder on any number of bits. -/
def decodeBits (w : Nat) : Except DecodeError Instr :=
  match toCmdWord w with
  | .ok c => .ok (decode c)
  | .error e => .error e

/-- The decoder on the bits `w` of a row of spec/opcode_table.json. A command is ten bits, so the count `nbits` of whole
bytes adds only bits that must be zero. -/
def decodeTableWord (_nbits w : Nat) : Option Instr :=
  match decodeBits w with
  | .ok i => some i
  | .error _ => none

end Sys2Proof
end

