-- ==== Sys2Proof/Config.lean ====
section
/-! DEFINITION. The fixed parameters of the block that a rule reads (R4) and the one open parameter, the host's byte order. -/

namespace Sys2Proof.Config

/-- `POLY`, the reflected polynomial (R4, R13). -/
def poly : Word := 0xEDB88320#32

/-- `INIT`, the value of `state` after reset (R4, R22). -/
def init : Word := 0xFFFFFFFF#32

/-- `XOROUT`: the checksum is `state XOR XOROUT` (R4, R54). -/
def xorOut : Word := 0xFFFFFFFF#32

/-- The values of `HOST_BYTE_ORDER`, the parameter R4 leaves OPEN. It is an argument of the pseudo-instruction that reads it
(R30, R67), never a choice of the model (log entry 8). -/
inductive ByteOrder where
  | little
  | big
  deriving DecidableEq, Repr

end Sys2Proof.Config
end

