-- ==== Sys2Proof/Machine/State.lean ====
section
/-! DEFINITION. The state of one block, its channels and the host's moves; the reasons a step can stop; the state after
hardware reset (10_state.md, 30_encoding.md R40 and R46, 60_exceptions.md R91, 70_reset_and_hazards.md R92). -/

namespace Sys2Proof.Machine

/-- The ghost lifecycle flag of R15. -/
inductive Phase where
  | initialized
  | accumulating
  deriving DecidableEq, Repr

/-- What the host can do to a block (R40, R91). -/
inductive HostMove where
  /-- Offer the command word `w` on the command channel. -/
  | command (w : CmdWord)
  /-- Take the oldest word of the response channel (R46). -/
  | takeResponse
  /-- Assert `hw_reset` between commands (R92, R98). -/
  | hwReset
  deriving DecidableEq, Repr

/-- The state of one block with its two channels. The register `state` and the ghost `phase` are the record of R10. The
other fields are the channels of R40: they hold what has crossed them and what has not, and no command reads them. -/
structure State where
  /-- The accumulator register, 32 bits, every value legal (R10, R11). -/
  state : Word
  /-- The ghost lifecycle flag (R15). -/
  phase : Phase
  /-- The response channel: words produced and not yet transferred to the host, oldest first (R46). -/
  response : List Word
  /-- The words the host has taken, oldest first: the responses of the observation of R7 (log entry 2). -/
  received : List Word
  /-- The host's moves still to come, in the order the host makes them (R7, R16; log entry 1). -/
  inputs : List HostMove
  deriving DecidableEq, Repr

/-- The reasons a step faults: none. The block raises no exception and no command can fault (R80), so the type is empty,
and that is exact. -/
inductive Fault where
  deriving DecidableEq, Repr

/-- The reasons a step is refused. -/
inductive Refusal where
  /-- An instruction with no meaning yet, rejected by name in exec's arm; safe. No arm of this model raises it. -/
  | notModelled (mnemonic : String)
  /-- A reserved command word, `op = 0b11`: raised by the arm of `RESERVED_OP3`, because R43 gives it no behaviour and says
  that a model refuses it; safe. -/
  | reservedCommand
  deriving DecidableEq, Repr

/-- The block right after hardware reset: the values of R22 and R92, and, for the model's own two fields, nothing received
and no move of the host placed (log entries 1 and 2). -/
def State.reset : State where
  state := Config.init
  phase := .initialized
  response := []
  received := []
  inputs := []

end Sys2Proof.Machine
end

