-- ==== Sys2Proof/Machine/Flags.lean ====
section
/-! DEFINITION. The block has no status flag (10_state.md R17). The one flag-like thing is the ghost `phase` (R15), and
these are all the writes of it: hardware reset and `RESET`, and `UPDATE`. -/

namespace Sys2Proof.Machine

/-- `phase <- INITIALIZED` (R15): hardware reset and `RESET`. -/
def State.markInitialized (s : State) : State := { s with phase := .initialized }

/-- `phase <- ACCUMULATING` (R15): `UPDATE`. -/
def State.markAccumulating (s : State) : State := { s with phase := .accumulating }

end Sys2Proof.Machine
end

