-- ==== Sys2Proof/Machine/Operands.lean ====
section
/-! DEFINITION. The operand forms: the nibbles of the byte operand (20_memory.md R29, 40_primitive_ops.md R51) and the byte
image of a multi-byte element (20_memory.md R30, 41_composite_ops.md R67). -/

namespace Sys2Proof.Machine

/-- The low nibble `b[3:0]`. -/
def lowNibble (b : Byte) : Nibble := b.extractLsb' 0 4

/-- The high nibble `b[7:4]`; `b` is unsigned (R56). -/
def highNibble (b : Byte) : Nibble := b.extractLsb' 4 4

/-- `bytes_little(v, w)`: the `w` bytes of `v`, least significant first (R67). -/
def bytesLittle : (w : Nat) → (v : Nat) → List Byte
  | 0, _ => []
  | w + 1, v => BitVec.ofNat 8 v :: bytesLittle w (v / 2 ^ 8)

/-- `bytes_big(v, w)`: the same bytes, most significant first (R67). -/
def bytesBig (w v : Nat) : List Byte := (bytesLittle w v).reverse

/-- The bytes of one element of numeric value `v` in the host's memory, by `HOST_BYTE_ORDER` (R67). -/
def elementBytes : Config.ByteOrder → (w v : Nat) → List Byte
  | .little, w, v => bytesLittle w v
  | .big, w, v => bytesBig w v

/-- The elements of a buffer of numbers as their byte images, in buffer order (R67: `image(vs, w)` is their concatenation). -/
def elementImages (o : Config.ByteOrder) (w : Nat) (vs : List Nat) : List (List Byte) := vs.map (elementBytes o w)

end Sys2Proof.Machine
end

