-- ==== Sys2Proof/Machine/Table.lean ====
section
/-! DEFINITION. The lookup table, the block's only address space (10_state.md R12 to R14, 20_memory.md R25, R26). -/

namespace Sys2Proof.Machine

/-- `TABLE[0..15]`, a constant (R12, R14). DEDUCED by the spec from the polynomial (R13; log entry 7). -/
def table : Vector Word 16 := #v[
  0x00000000#32, 0x1DB71064#32, 0x3B6E20C8#32, 0x26D930AC#32,
  0x76DC4190#32, 0x6B6B51F4#32, 0x4DB26158#32, 0x5005713C#32,
  0xEDB88320#32, 0xF00F9344#32, 0xD6D6A3E8#32, 0xCB61B38C#32,
  0x9B64C2B0#32, 0x86D3D2D4#32, 0xA00AE278#32, 0xBDBDF21C#32]

/-- `TableRead(idx)`: total on the 16 indices, without side effect (R26). -/
def tableRead (idx : Nibble) : Word := table.get idx.toFin

end Sys2Proof.Machine
end

