-- ==== Sys2Proof/Machine/Ops.lean ====
section
/-! DEFINITION. The datapath functions (40_primitive_ops.md R50, R51, R54; 41_composite_ops.md R65), the named writes of
the state, hardware reset (70_reset_and_hazards.md R92), the two channels (30_encoding.md R40, R46), and the sequencing of
outcomes. The block has no exception, so there is no operation that takes one or returns from one (60_exceptions.md R80,
R83, R84). -/

namespace Sys2Proof.Machine

/-- `NibStep(s, n)` (R50). -/
def nibStep (s : Word) (n : Nibble) : Word :=
  let idx : Nibble := s.extractLsb' 0 4 ^^^ n
  tableRead idx ^^^ (s >>> 4)

/-- `UpdateByte(s, b)`: low nibble first, then high (R51). -/
def updateByte (s : Word) (b : Byte) : Word :=
  let s1 := nibStep s (lowNibble b)
  nibStep s1 (highNibble b)

/-- `UpdateBytes(s, bs)` (R65). -/
def updateBytes (s : Word) : List Byte → Word
  | [] => s
  | b :: rest => updateBytes (updateByte s b) rest

/-- `Checksum(s) = NOT s` (R54). -/
def checksum (s : Word) : Word := ~~~s

/-- `CRC32(bs)` (R65). -/
def crc32 (bs : List Byte) : Word := checksum (updateBytes Config.init bs)

/-- `state <- v`. -/
def State.writeState (s : State) (v : Word) : State := { s with state := v }

/-- `respond(v)`: the word `v` is put on the response channel, behind any word still there (R46: none is overwritten). -/
def State.respond (s : State) (v : Word) : State := { s with response := s.response ++ [v] }

/-- A transfer on the response channel: the host takes the oldest word. With no word there, nothing is transferred
(log entry 4). -/
def State.deliver (s : State) : State :=
  match s.response with
  | [] => s
  | v :: rest => { s with response := rest, received := s.received ++ [v] }

/-- The host's moves still to come become `ms`. -/
def State.withInputs (s : State) (ms : List HostMove) : State := { s with inputs := ms }

/-- Hardware reset (R92, R22): the register and the ghost take their reset values and no response is pending. What the
host has received and will do is the host's, and stays (log entry 3). -/
def State.hardwareReset (s : State) : State :=
  { (s.writeState Config.init).markInitialized with response := [] }

/-- A response not yet taken holds the block: it accepts no command (R46). -/
def State.held (s : State) : Bool := !s.response.isEmpty

/-- The next move of the host that can take place, and the moves left. A command offered while the block is held waits,
never dropped (R40, R46), and only a move that is no command, a transfer on the response channel or `hw_reset`, can take
place before it (log entry 3). `none`: no move can take place. -/
def nextMove (held : Bool) : List HostMove → Option (HostMove × List HostMove)
  | [] => none
  | .command w :: rest =>
    if held then (nextMove held rest).map fun p => (p.1, .command w :: p.2)
    else some (.command w, rest)
  | .takeResponse :: rest => some (.takeResponse, rest)
  | .hwReset :: rest => some (.hwReset, rest)

/-- Go on with `f` from the next state; a stop stays a stop (R43: a refusal is kept for the whole run). -/
def andThen (o : Host.Outcome State Fault Refusal) (f : State → Host.Outcome State Fault Refusal) :
    Host.Outcome State Fault Refusal :=
  match o with
  | .next s => f s
  | .fault r => .fault r
  | .refused r => .refused r

/-- The next state of an outcome, if it is one. -/
def nextOf : Host.Outcome State Fault Refusal → Option State
  | .next s => some s
  | .fault _ => none
  | .refused _ => none

end Sys2Proof.Machine
end

