-- ==== Sys2Proof/Machine/Primitive.lean ====
section
/-! DEFINITION. The meanings of the rows of the opcode table (40_primitive_ops.md R52 to R54, 30_encoding.md R43). -/

namespace Sys2Proof.Machine

/-- `RESET` (R52): `state <- 0xFFFFFFFF`, `phase <- INITIALIZED`, no response. -/
def execReset (s : State) : Host.Outcome State Fault Refusal :=
  .next (s.writeState Config.init).markInitialized

/-- `UPDATE b` (R53): `state <- UpdateByte(state, b)`, `phase <- ACCUMULATING`, no response. -/
def execUpdate (b : Byte) (s : State) : Host.Outcome State Fault Refusal :=
  .next (s.writeState (updateByte s.state b)).markAccumulating

/-- `FINALIZE` (R54): `respond(Checksum(state))`, nothing else. -/
def execFinalize (s : State) : Host.Outcome State Fault Refusal :=
  .next (s.respond (checksum s.state))

/-- A reserved word (R43, R86): the spec gives it no behaviour, and the model refuses it. -/
def execReservedOp3 (_s : State) : Host.Outcome State Fault Refusal :=
  .refused .reservedCommand

end Sys2Proof.Machine
end

