-- ==== Sys2Proof/Machine/Serve.lean ====
section
/-! DEFINITION. What one move of the host does to the block (60_exceptions.md R91), the folds of moves and of commands
(40_primitive_ops.md R63, 00_scope.md R7), and the byte stream since the last reset (20_memory.md R27, 41_composite_ops.md
R69). -/

namespace Sys2Proof.Machine

/-- One move of the host taking place: a command is decoded and executed (R45, R63), a response is transferred (R46), or
hardware reset is taken (R92). -/
def serve (m : HostMove) (s : State) : Host.Outcome State Fault Refusal :=
  match m with
  | .command w => exec (decode w) s
  | .takeResponse => .next s.deliver
  | .hwReset => .next s.hardwareReset

/-- Moves one after another. -/
def serveAll : List HostMove → State → Host.Outcome State Fault Refusal
  | [], s => .next s
  | m :: rest, s => andThen (serve m s) (serveAll rest)

/-- `run` of R63: the fold of `exec` over commands. The responses gather on the response channel in order. -/
def execAll : List Instr → State → Host.Outcome State Fault Refusal
  | [], s => .next s
  | i :: rest, s => andThen (exec i s) (execAll rest)

/-- The byte stream since the last reset, after one more command (R27, R69). -/
def streamAfterCommand (bs : List Byte) : Instr → List Byte
  | .reset => []
  | .update b => bs ++ [b]
  | .finalize => bs
  | .reservedOp3 => bs

/-- The byte stream since the last reset, after one more move of the host (R27, R69). -/
def streamAfterMove (bs : List Byte) : HostMove → List Byte
  | .command w => streamAfterCommand bs (decode w)
  | .takeResponse => bs
  | .hwReset => []

/-- The moves of a host that issues one command and takes the response if there is one (R91, D7). -/
def issue (i : Instr) : List HostMove :=
  match encode i with
  | some w => [.command w, .takeResponse]
  | none => []

end Sys2Proof.Machine
end

