-- ==== Sys2Proof/Machine/Step.lean ====
section
/-! DEFINITION. One step of the block: the next move of the host that can take place (00_scope.md R6, 30_encoding.md R40),
and placing one command as the host's next move. -/

namespace Sys2Proof.Machine

/-- One step. With no move that can take place the block holds its state (R90, R99; log entry 5). -/
def step (s : State) : Host.Outcome State Fault Refusal :=
  match nextMove s.held s.inputs with
  | none => .next s
  | some (m, rest) => serve m (s.withInputs rest)

/-- The host offers the command word with the bits `w` as its next move, having taken every response before, so that the
block is not held (R46; log entry 1). A number of more than ten bits is no command word, and nothing is offered. -/
def State.withFetchWord (s : State) (_nbits w : Nat) : State :=
  match toCmdWord w with
  | .ok c => { s with response := [], received := s.received ++ s.response, inputs := .command c :: s.inputs }
  | .error _ => s

end Sys2Proof.Machine
end

