-- ==== Sys2Proof/Machine/Pseudo.lean ====
section
/-! DEFINITION. The host's pseudo-instructions and their expansions (30_encoding.md R48, 41_composite_ops.md R66, R67, R70). -/

namespace Sys2Proof.Machine

/-- A pseudo-instruction with the bytes the host's memory holds for it. An element is its raw byte image (R67), so that
padding bytes are any bytes (93_implementation_defined.md U3). -/
inductive Pseudo where
  /-- `UPDATEB b0, …` (R66). -/
  | updateB (bs : List Byte)
  /-- `UPDATEE.w v0, …` (R67), each element as its `w` bytes in host memory order. -/
  | updateE (w : Nat) (elements : List (List Byte))
  /-- `CALCULATE b0, …` (R70). -/
  | calculate (bs : List Byte)
  /-- `CALCULATE` over a buffer with an element width (R70). -/
  | calculateE (w : Nat) (elements : List (List Byte))
  deriving DecidableEq, Repr

/-- The element width is at least one and every element has that many bytes (R67). -/
def elementsWf (w : Nat) (elements : List (List Byte)) : Bool := 1 ≤ w && elements.all (·.length == w)

/-- Well-formed pseudo-instructions. -/
def Pseudo.wf : Pseudo → Bool
  | .updateB _ => true
  | .updateE w elements => elementsWf w elements
  | .calculate _ => true
  | .calculateE w elements => elementsWf w elements

/-- The bytes fed to the block, in order (R66, R67, R70). -/
def Pseudo.bytes : Pseudo → List Byte
  | .updateB bs => bs
  | .updateE _ elements => elements.flatten
  | .calculate bs => bs
  | .calculateE _ elements => elements.flatten

/-- The primitive commands the host issues (R66, R67, R70). -/
def Pseudo.expand (p : Pseudo) : List Instr :=
  match p with
  | .updateB bs => bs.map .update
  | .updateE _ elements => elements.flatten.map .update
  | .calculate bs => .reset :: (bs.map .update ++ [.finalize])
  | .calculateE _ elements => .reset :: (elements.flatten.map .update ++ [.finalize])

end Sys2Proof.Machine
end

