-- ==== Sys2Proof/Machine/Assembler.lean ====
section
/-! DEFINITION. The assembler syntax of 30_encoding.md R47 and the pseudo-instructions of R48: one command per line, read
from its characters. Points of the text format that R47 does not fix are in log entry 6. -/

namespace Sys2Proof.Machine

/-- The pieces of a line. -/
inductive Token where
  /-- A run of characters that are no separator: a mnemonic or a number. -/
  | word (cs : List Char)
  /-- A single-quoted character. -/
  | quoted (c : Char)
  | comma
  deriving DecidableEq, Repr

/-- The single quote, the comma and the semicolon of R47, and the two characters that separate words (log entry 6). -/
def quoteChar : Char := Char.ofNat 0x27
def commaChar : Char := Char.ofNat 0x2C
def commentChar : Char := Char.ofNat 0x3B
def isBlank (c : Char) : Bool := c == Char.ofNat 0x20 || c == Char.ofNat 0x09

/-- The word read so far (its characters last first), in front of the rest. -/
def flushWord (acc : List Char) (rest : List Token) : List Token :=
  if acc.isEmpty then rest else .word acc.reverse :: rest

/-- Where the reader of a line stands: in a word (its characters so far, last first), just after an opening quote, or just
after the quoted character. -/
inductive LexMode where
  | inWord (acc : List Char)
  | opened
  | closing (c : Char)
  deriving DecidableEq, Repr

/-- The tokens of a line: `;` starts a comment to the end of the line, and a quoted character is never a separator. -/
def tokenize : LexMode → List Char → Option (List Token)
  | .inWord acc, [] => some (flushWord acc [])
  | .opened, [] => none
  | .closing _, [] => none
  | .opened, c :: rest => tokenize (.closing c) rest
  | .closing c, d :: rest =>
    if d = quoteChar then (tokenize (.inWord []) rest).map (.quoted c :: ·) else none
  | .inWord acc, c :: rest =>
    if c = commentChar then some (flushWord acc [])
    else if c = quoteChar then (tokenize .opened rest).map (flushWord acc)
    else if c = commaChar then (tokenize (.inWord []) rest).map fun ts => flushWord acc (.comma :: ts)
    else if isBlank c then (tokenize (.inWord []) rest).map (flushWord acc)
    else tokenize (.inWord (c :: acc)) rest

/-- The value of a digit: decimal digits, and letters of hexadecimal in either case (log entry 6). -/
def digitValue (c : Char) : Option Nat :=
  if 0x30 ≤ c.toNat ∧ c.toNat ≤ 0x39 then some (c.toNat - 0x30)
  else if 0x41 ≤ c.toNat ∧ c.toNat ≤ 0x46 then some (c.toNat - 0x41 + 10)
  else if 0x61 ≤ c.toNat ∧ c.toNat ≤ 0x66 then some (c.toNat - 0x61 + 10)
  else none

/-- The number with the given digits after the value `n`. -/
def digits (base n : Nat) : List Char → Option Nat
  | [] => some n
  | c :: rest =>
    match digitValue c with
    | some d => if d < base then digits base (n * base + d) rest else none
    | none => none

/-- A hexadecimal (`0x31`) or decimal (`49`) literal. -/
def numberLiteral : List Char → Option Nat
  | [] => none
  | '0' :: 'x' :: c :: cs => digits 16 0 (c :: cs)
  | c :: cs => digits 10 0 (c :: cs)

/-- A literal below `bound`: hexadecimal, decimal or a single-quoted ASCII character (R47). -/
def literal (bound : Nat) : Token → Option Nat
  | .word cs => (numberLiteral cs).filter (· < bound)
  | .quoted c => if c.toNat < 0x80 ∧ c.toNat < bound then some c.toNat else none
  | .comma => none

/-- Operands separated by commas. -/
def operands : List Token → Option (List Token)
  | [] => some []
  | [t] => if t = .comma then none else some [t]
  | t :: .comma :: u :: rest => if t = .comma then none else (operands (u :: rest)).map (t :: ·)
  | _ :: _ :: _ => none

/-- The literals of an operand list, each below `bound`. -/
def literals (bound : Nat) (ts : List Token) : Option (List Nat) :=
  (operands ts).bind fun us => us.mapM (literal bound)

/-- The byte operands of an operand list (R47: 0..255). -/
def byteLiterals (ts : List Token) : Option (List Byte) := (literals 0x100 ts).map (·.map (BitVec.ofNat 8))

/-- The element width after `UPDATEE.`, in bytes, at least one (R67). -/
def elementWidth (mnemonic : List Char) : Option Nat :=
  match mnemonic with
  | 'U' :: 'P' :: 'D' :: 'A' :: 'T' :: 'E' :: 'E' :: '.' :: cs =>
    if cs.isEmpty then none else (digits 10 0 cs).filter (1 ≤ ·)
  | _ => none

def mnemonicReset : List Char := ['R', 'E', 'S', 'E', 'T']
def mnemonicUpdate : List Char := ['U', 'P', 'D', 'A', 'T', 'E']
def mnemonicFinalize : List Char := ['F', 'I', 'N', 'A', 'L', 'I', 'Z', 'E']
def mnemonicUpdateB : List Char := ['U', 'P', 'D', 'A', 'T', 'E', 'B']
def mnemonicCalculate : List Char := ['C', 'A', 'L', 'C', 'U', 'L', 'A', 'T', 'E']

/-- The commands of the tokens of a line: none of a blank line, one of a command, the expansion of a pseudo-instruction, on
a host with byte order `o`; `none` where the line is not of the syntax. -/
def assembleTokens (o : Config.ByteOrder) : List Token → Option (List Instr)
  | [] => some []
  | .word m :: ts =>
    if m = mnemonicReset then if ts.isEmpty then some [.reset] else none
    else if m = mnemonicFinalize then if ts.isEmpty then some [.finalize] else none
    else if m = mnemonicUpdate then
      match byteLiterals ts with
      | some [b] => some [.update b]
      | _ => none
    else if m = mnemonicUpdateB then (byteLiterals ts).map fun bs => (Pseudo.updateB bs).expand
    else if m = mnemonicCalculate then (byteLiterals ts).map fun bs => (Pseudo.calculate bs).expand
    else
      (elementWidth m).bind fun w =>
        (literals (2 ^ (8 * w)) ts).map fun vs => (Pseudo.updateE w (elementImages o w vs)).expand
  | .quoted _ :: _ => none
  | .comma :: _ => none

/-- The commands of a line of assembly. -/
def assembleLine (o : Config.ByteOrder) (line : List Char) : Option (List Instr) :=
  (tokenize (.inWord []) line).bind (assembleTokens o)

/-- The commands of a program, its lines in order. -/
def assembleProgram (o : Config.ByteOrder) (lines : List (List Char)) : Option (List Instr) :=
  (lines.mapM (assembleLine o)).map List.flatten

/-- The character of a hexadecimal digit, in the upper case the spec writes. -/
def hexDigit (n : Nibble) : Char :=
  if n.toNat < 10 then Char.ofNat (0x30 + n.toNat) else Char.ofNat (0x41 + n.toNat - 10)

/-- A byte as a hexadecimal literal. -/
def hexByte (b : Byte) : List Char := ['0', 'x', hexDigit (highNibble b), hexDigit (lowNibble b)]

/-- The line of a command (R47); the reserved verdict has none. -/
def assembly : Instr → Option (List Char)
  | .reset => some mnemonicReset
  | .update b => some (mnemonicUpdate ++ Char.ofNat 0x20 :: hexByte b)
  | .finalize => some mnemonicFinalize
  | .reservedOp3 => none

end Sys2Proof.Machine
end

