-- ==== Sys2Proof/Machine/Pipeline.lean ====
section
/-! DEFINITION. The two-stage lookup pipeline of one `UPDATE` (40_primitive_ops.md R58) with the intermediate value `s1`
of 10_state.md R20: an implementation whose steps are finer than a command, to say that the internal hazards of
70_reset_and_hazards.md R96 and a reset during a command (R98) are invisible. The machine's step does not use it. -/

namespace Sys2Proof.Machine

/-- The datapath between commands or inside an `UPDATE`. -/
structure Pipeline where
  /-- The committed state: what a command or a response can see. -/
  arch : State
  /-- Inside an `UPDATE`, after stage L: `s1` and the high nibble of the byte (R20, R58). -/
  inFlight : Option (Word × Nibble)
  deriving DecidableEq, Repr

/-- What can happen in one step of the datapath. -/
inductive MicroStep where
  /-- An `UPDATE b` is accepted and stage L does its lookup. -/
  | stageL (b : Byte)
  /-- Stage H does its lookup and the result is committed. -/
  | stageH
  /-- A command that looks nothing up is accepted. -/
  | reset
  | finalize
  /-- `hw_reset` is asserted: a command in progress is abandoned (R98). -/
  | hwReset
  deriving DecidableEq, Repr

/-- One step of the datapath; `none` where it must wait: no command is accepted before stage H has delivered (R58, R96), and
stage H has nothing to do without stage L. -/
def Pipeline.micro (p : Pipeline) (m : MicroStep) : Option Pipeline :=
  match m, p.inFlight with
  | .stageL b, none => some { p with inFlight := some (nibStep p.arch.state (lowNibble b), highNibble b) }
  | .stageH, some (s1, h) =>
    some { arch := (p.arch.writeState (nibStep s1 h)).markAccumulating, inFlight := none }
  | .reset, none => (nextOf (exec .reset p.arch)).map fun t => { arch := t, inFlight := none }
  | .finalize, none => (nextOf (exec .finalize p.arch)).map fun t => { arch := t, inFlight := none }
  | .hwReset, _ => some { arch := p.arch.hardwareReset, inFlight := none }
  | .stageL _, some _ => none
  | .stageH, none => none
  | .reset, some _ => none
  | .finalize, some _ => none

/-- Steps of the datapath one after another; `none` if one of them must wait. -/
def Pipeline.microAll (p : Pipeline) : List MicroStep → Option Pipeline
  | [] => some p
  | m :: rest => (p.micro m).bind fun q => q.microAll rest

/-- The moves of the host that a list of steps of the datapath completes, `b` being the byte of the `UPDATE` in progress:
an `UPDATE` counts when stage H commits it, and one abandoned by `hw_reset` does not count (R98). -/
def committedMoves (b : Option Byte) : List MicroStep → List HostMove
  | [] => []
  | .stageL b' :: rest => committedMoves (some b') rest
  | .stageH :: rest => (b.map fun x => HostMove.command (cmdWord 0b01#2 x)).toList ++ committedMoves none rest
  | .reset :: rest => .command 0x000#10 :: committedMoves none rest
  | .finalize :: rest => .command 0x200#10 :: committedMoves none rest
  | .hwReset :: rest => .hwReset :: committedMoves none rest

end Sys2Proof.Machine
end

