-- ==== Sys2Proof/Machine/Reference.lean ====
section
/-! DEFINITION. The bit-level reflected CRC-32 that the spec measures the block against (10_state.md R13, 40_primitive_ops.md
R57, 41_composite_ops.md R78). The spec takes this definition from general knowledge (93_implementation_defined.md K1; log
entry 7). Nothing the block does calls it. -/

namespace Sys2Proof.Machine

/-- `BitStep(c)` (R13). -/
def bitStep (c : Word) : Word :=
  if c.getLsbD 0 then (c >>> 1) ^^^ Config.poly else c >>> 1

/-- `BitStep` applied `n` times. -/
def bitSteps : Nat → Word → Word
  | 0, c => c
  | n + 1, c => bitSteps n (bitStep c)

/-- `T256[j]` (R13). -/
def t256 (j : Byte) : Word := bitSteps 8 (j.setWidth 32)

/-- The bit-wise algorithm's fold over a byte sequence (R78). -/
def bitwiseBytes (c : Word) : List Byte → Word
  | [] => c
  | b :: rest => bitwiseBytes (bitSteps 8 (c ^^^ b.setWidth 32)) rest

/-- The result of the bit-wise algorithm (R78). -/
def bitwiseCrc32 (bs : List Byte) : Word := ~~~(bitwiseBytes 0xFFFFFFFF#32 bs)

end Sys2Proof.Machine
end

