-- ==== Sys2Proof/Machine/Run.lean ====
section
/-! DEFINITION. Runs of several steps (00_scope.md R7). -/

namespace Sys2Proof.Machine

/-- `n` steps from `s`; a stop is kept for the whole run (R43). -/
def runSteps : Nat → State → Host.Outcome State Fault Refusal
  | 0, s => .next s
  | n + 1, s => andThen (step s) (runSteps n)

end Sys2Proof.Machine
end

