-- ==== Sys2Proof/Machine/System.lean ====
section
/-! DEFINITION. A system of several independent blocks (10_state.md R21, 60_exceptions.md R88): they share the constant
table and nothing else. -/

namespace Sys2Proof.Machine

/-- The blocks of a system. Their places in the list are the system's names for them: a block has no identifier (R88). -/
abbrev System := List State

/-- Block `k` takes one step, and no other block does. The model's choices, where the spec defines no run of a system (DESIGN
CHOICE, log entry 13): with no block `k` nothing happens; and a reserved word at one block refuses the step of the whole system,
so that nothing is claimed of any block after it, since R43 keeps the refusal for the whole run and does not say what becomes
of the other blocks. -/
def stepBlock (k : Nat) (sys : System) : Host.Outcome System Fault Refusal :=
  match sys[k]? with
  | none => .next sys
  | some s =>
    match step s with
    | .next t => .next (sys.set k t)
    | .fault r => .fault r
    | .refused r => .refused r

end Sys2Proof.Machine
end

