-- ==== Sys2Proof/Safety.lean ====
section
/-! DEFINITION. What counts as a legal state and a safe run, and what the host can observe (00_scope.md R7, 10_state.md R15,
30_encoding.md R46, 92_eei_decisions.md "Launch premises"). -/

namespace Sys2Proof.Machine

/-- A legal state: a block marked initialized holds `0xFFFFFFFF` (R15), and at most one response waits to be taken (R46). -/
abbrev State.Legal (s : State) : Prop :=
  (s.phase = .initialized → s.state = Config.init) ∧ s.response.length ≤ 1

/-- The move of the host is no reserved word (launch premise 3). -/
def HostMove.defined : HostMove → Bool
  | .command w => (decode w).wf
  | .takeResponse => true
  | .hwReset => true

/-- No reserved word is among the host's moves still to come. -/
def State.inputsDefined (s : State) : Bool := s.inputs.all HostMove.defined

/-- The command words among the host's moves, in issue order. -/
def commandsOf : List HostMove → List CmdWord
  | [] => []
  | .command w :: rest => w :: commandsOf rest
  | .takeResponse :: rest => commandsOf rest
  | .hwReset :: rest => commandsOf rest

/-- Every response produced so far, in order: those the host has taken and those on the channel (R7). -/
def State.responses (s : State) : List Word := s.received ++ s.response

/-- The observation of a run that ends in this state (R7): the responses in order and the final `state`. -/
def State.observation (s : State) : List Word × Word := (s.responses, s.state)

end Sys2Proof.Machine
end

