-- ==== Sys2Proof/Certificates/Slice0/Obligations.lean ====
section
/-! DEFINITION. The statements for the provers, file by file of the spec. -/

open Sys2Proof Sys2Proof.Machine

/-! ## Encoding (30_encoding.md) -/

/-- R42: a word selects a row when `(w AND mask) = match`. -/
def Obligations.OpFieldSelectsCommand : Prop :=
  ∀ w : CmdWord,
    (decode w = .reset ↔ w &&& 0x300#10 = 0x000#10) ∧
    (decode w = .update (dataField w) ↔ w &&& 0x300#10 = 0x100#10) ∧
    (decode w = .finalize ↔ w &&& 0x300#10 = 0x200#10) ∧
    (decode w = .reservedOp3 ↔ w &&& 0x300#10 = 0x300#10)

/-- R44: the `data` field of `RESET` and `FINALIZE` changes nothing, neither in the decoder nor in what the block does. -/
def Obligations.IgnoredDataBitsChangeNothing : Prop :=
  (∀ w : CmdWord, w.toNat ≤ 0x0FF →
    decode w = .reset ∧ ∀ s, serve (.command w) s = serve (.command 0x000#10) s) ∧
  (∀ w : CmdWord, 0x200 ≤ w.toNat → w.toNat ≤ 0x2FF →
    decode w = .finalize ∧ ∀ s, serve (.command w) s = serve (.command 0x200#10) s) ∧
  encode .reset = some 0x000#10 ∧ encode .finalize = some 0x200#10

/-- R45: the decoder by `op`, the encoder, and how far each undoes the other. The byte operand is used as it stands: inside
`UPDATE` it is zero-extended before the XOR with `state`. -/
def Obligations.DecodeAndEncodeAgree : Prop :=
  (∀ data : Byte,
    decode (0b00#2 ++ data) = .reset ∧ decode (0b01#2 ++ data) = .update data ∧
    decode (0b10#2 ++ data) = .finalize ∧ decode (0b11#2 ++ data) = .reservedOp3) ∧
  encode .reset = some 0x000#10 ∧
  (∀ b : Byte, encode (.update b) = some (0x100#10 + b.setWidth 10)) ∧
  encode .finalize = some 0x200#10 ∧
  (∀ i : Instr, i.wf = true → ∃ w, encode i = some w ∧ decode w = i) ∧
  (∀ w : CmdWord, encode (decode w) = some w ↔ canonical w = true ∧ decode w ≠ .reservedOp3) ∧
  (∀ (s : Word) (b : Byte), updateByte s b = updateByte (s ^^^ b.setWidth 32) 0#8)

/-- R43: a reserved word decodes to the verdict, is no command's word and is refused, and a refusal is kept for the whole
run. The stop of the row `RESERVED_OP3`. -/
def Obligations.ReservedWordsAreRefused : Prop :=
  (∀ w : CmdWord, 0x300 ≤ w.toNat → decode w = .reservedOp3 ∧ ∀ i, encode i ≠ some w) ∧
  (∀ s, exec .reservedOp3 s = .refused .reservedCommand) ∧
  (∀ (w : CmdWord) (s : State) (ms : List HostMove), 0x300 ≤ w.toNat → s.response = [] →
    step (s.withInputs (.command w :: ms)) = .refused .reservedCommand) ∧
  (∀ (n k : Nat) (s : State) (r : Refusal),
    runSteps n s = .refused r → runSteps (n + k) s = .refused r)

/-- 95_test_vectors.md 2.8: words written out bit by bit. A sanity statement. That a number with bit 10 set decodes to nothing
is the model's reading of R41 (every command is exactly 10 bits), DEDUCED in log entry 12. -/
def Obligations.SampleWordsDecode : Prop :=
  decodeTableWord 16 0b0010100101 = some .reset ∧
  decodeTableWord 16 0b0100110001 = some (.update 0x31#8) ∧
  decodeTableWord 16 0b1011111111 = some .finalize ∧
  decodeTableWord 16 0b1100000000 = some .reservedOp3 ∧
  decodeTableWord 16 0b10000000000 = none

/-- R47: the line of a command assembles to that command, on a host of either byte order, and so does the line with a
quoted ASCII operand. The model's choices in it, DESIGN CHOICE in log entry 6: the blank between mnemonic and operand, the
upper-case hexadecimal digits the line is written with, and the quoted clause for every code below 0x80 (the quote itself,
the separators and the control characters too). -/
def Obligations.AssemblyRoundTrip : Prop :=
  (∀ (i : Instr) (o : Config.ByteOrder), i.wf = true →
    ∃ line, assembly i = some line ∧ assembleLine o line = some [i]) ∧
  (∀ (c : Char) (o : Config.ByteOrder), c.toNat < 0x80 →
    assembleLine o (mnemonicUpdate ++ [' ', quoteChar, c, quoteChar]) = some [.update (BitVec.ofNat 8 c.toNat)])

/-! ## The datapath (40_primitive_ops.md, 10_state.md) -/

/-- R50: the table is read at the low four bits of `s XOR n`, and the shift is logical. -/
def Obligations.NibbleStepReadsLowBits : Prop :=
  ∀ (s : Word) (n : Nibble),
    nibStep s n = tableRead ((s ^^^ n.setWidth 32).setWidth 4) ^^^ (s >>> 4) ∧
    (s ^^^ n.setWidth 32) &&& 0x0000000F#32 = (s.extractLsb' 0 4 ^^^ n).setWidth 32 ∧
    (s >>> 4).extractLsb' 28 4 = 0#4 ∧
    (nibStep s n).extractLsb' 28 4 = (tableRead (s.extractLsb' 0 4 ^^^ n)).extractLsb' 28 4

/-- R51, R56: the update of one byte is the source's four lines, whether the byte is shifted as an unsigned or as a signed
value. -/
def Obligations.ByteUpdateIsTheListing : Prop :=
  ∀ (s : Word) (b : Byte),
    let entry (idx : Word) : Word := tableRead (idx.setWidth 4)
    let s1 := entry ((s ^^^ (b.setWidth 32 >>> 0)) &&& 0x0000000F#32) ^^^ (s >>> 4)
    updateByte s b = entry ((s1 ^^^ (b.setWidth 32 >>> 4)) &&& 0x0000000F#32) ^^^ (s1 >>> 4) ∧
    updateByte s b = entry ((s1 ^^^ (b.signExtend 32).sshiftRight 4) &&& 0x0000000F#32) ^^^ (s1 >>> 4)

/-- R13: the table is four bit steps of its index, every 16th entry of the 256-entry table, its entries are pairwise
distinct, and it is the only table that makes the nibble step of R50 four bit steps of the byte-wise CRC. `BitStep` and
`T256` are the bit-level definition of general knowledge (93_implementation_defined.md K1), PRESUMED in log entry 7, and the
uniqueness is the spec's own derivation. -/
def Obligations.TableIsForcedByThePolynomial : Prop :=
  (∀ i : Nibble, tableRead i = bitSteps 4 (i.setWidth 32) ∧ tableRead i = t256 (i.setWidth 8 <<< 4)) ∧
  (∀ i j : Nibble, tableRead i = tableRead j → i = j) ∧
  tableRead 0#4 = 0#32 ∧ tableRead 8#4 = Config.poly ∧ tableRead 1#4 = 0x1DB71064#32 ∧ t256 16#8 = 0x1DB71064#32 ∧
  (∀ other : Nibble → Word,
    (∀ (s : Word) (n : Nibble), other (s.extractLsb' 0 4 ^^^ n) ^^^ (s >>> 4) = bitSteps 4 (s ^^^ n.setWidth 32)) ↔
    ∀ i, other i = tableRead i)

/-- R57: the three equalities with the byte-wise CRC-32, whose bit-level definition is of general knowledge
(93_implementation_defined.md K1), PRESUMED in log entry 7. -/
def Obligations.ByteUpdateIsEightBitSteps : Prop :=
  ∀ (s : Word) (n : Nibble) (b : Byte),
    nibStep s n = bitSteps 4 (s ^^^ n.setWidth 32) ∧
    updateByte s b = bitSteps 8 (s ^^^ b.setWidth 32) ∧
    updateByte s b = t256 ((s ^^^ b.setWidth 32).setWidth 8) ^^^ (s >>> 8)

/-- R59 (a): both updates are bijections on the states, and how the state before is found from the state after. -/
def Obligations.DatapathIsInvertible : Prop :=
  (∀ n : Nibble, Function.Bijective fun s => nibStep s n) ∧
  (∀ b : Byte, Function.Bijective fun s => updateByte s b) ∧
  (∀ (s : Word) (n i : Nibble),
    (tableRead i).extractLsb' 28 4 = (nibStep s n).extractLsb' 28 4 →
    s.extractLsb' 4 28 = (nibStep s n ^^^ tableRead i).extractLsb' 0 28 ∧ s.extractLsb' 0 4 = i ^^^ n)

/-- R59 (b): the table and both updates are linear over XOR. -/
def Obligations.DatapathIsLinear : Prop :=
  (∀ i j : Nibble, tableRead (i ^^^ j) = tableRead i ^^^ tableRead j) ∧
  (∀ (s d : Word) (n m : Nibble), nibStep (s ^^^ d) (n ^^^ m) = nibStep s n ^^^ nibStep d m) ∧
  (∀ (s d : Word) (b c : Byte), updateByte (s ^^^ d) (b ^^^ c) = updateByte s b ^^^ updateByte d c) ∧
  nibStep 0#32 0#4 = 0#32 ∧ updateByte 0#32 0#8 = 0#32

/-- R53 corner cases (a) and (b): a zero byte is unseen in the zero state and in no other. -/
def Obligations.ZeroByteUnseenOnlyInZeroState : Prop :=
  ∀ s : Word, updateByte s 0x00#8 = s ↔ s = 0#32

/-- R28, R65: anywhere in a stream, two consecutive bytes may be exchanged without changing the state only if they are
equal. R28 says that the two orders differ in general; that they differ always follows from R51 and the table of R12. -/
def Obligations.ByteOrderOfTheStreamMatters : Prop :=
  ∀ (s : Word) (xs ys : List Byte) (a b : Byte),
    updateBytes s (xs ++ [a, b] ++ ys) = updateBytes s (xs ++ [b, a] ++ ys) ↔ a = b

/-- R29 (95_test_vectors.md 2.5): high nibble first gives another checksum of "123". -/
def Obligations.NibbleOrderMatters : Prop :=
  let highFirst (s : Word) (b : Byte) : Word := nibStep (nibStep s (highNibble b)) (lowNibble b)
  ~~~(highFirst (highFirst (highFirst Config.init 0x31#8) 0x32#8) 0x33#8) = 0xE058D24C#32 ∧
    crc32 [0x31#8, 0x32#8, 0x33#8] ≠ 0xE058D24C#32

/-! ## The commands (40_primitive_ops.md) -/

/-- R52: `RESET`, from any state: all that it writes, and that nothing else changes. -/
def Obligations.ResetCommandRestoresInitialValue : Prop :=
  (∀ data : Byte, decode (0b00#2 ++ data) = .reset) ∧ encode .reset = some 0x000#10 ∧
  (∀ s : State, exec .reset s = .next { s with state := 0xFFFFFFFF#32, phase := .initialized }) ∧
  (∀ s : State, execAll [.reset, .reset] s = execAll [.reset] s) ∧
  (∀ s : State, exec .reset s.hardwareReset = .next s.hardwareReset) ∧
  (∀ s : State, s.state = 0x77B79C2D#32 →
    ∃ t, exec .reset s = .next t ∧ t.state = 0xFFFFFFFF#32 ∧ t.response = s.response)

/-- R53: `UPDATE b`, from any state and with any byte: all that it writes, and that nothing else changes. -/
def Obligations.UpdateCommandConsumesOneByte : Prop :=
  (∀ b : Byte, encode (.update b) = some (0x100#10 + b.setWidth 10) ∧ decode (0x100#10 + b.setWidth 10) = .update b) ∧
  (∀ (b : Byte) (s : State), exec (.update b) s =
    .next { s with state := nibStep (nibStep s.state (b.extractLsb' 0 4)) (b.extractLsb' 4 4), phase := .accumulating }) ∧
  (∀ (b : Byte) (s : State), execAll [.update b, .update b] s =
    .next { s with state := updateByte (updateByte s.state b) b, phase := .accumulating }) ∧
  (∀ (b : Byte) (s : State), execAll [.finalize, .update b] s =
    .next { s with state := updateByte s.state b, phase := .accumulating, response := s.response ++ [~~~s.state] }) ∧
  updateByte 0xFFFFFFFF#32 0x00#8 = 0x2DFD1072#32 ∧
  updateByte 0x00000000#32 0x00#8 = 0x00000000#32 ∧
  updateByte 0xFFFFFFFF#32 0xFF#8 = 0x00FFFFFF#32 ∧
  updateByte 0xFFFFFFFF#32 0x31#8 = 0x7C231048#32

/-- R54, R10: `FINALIZE`, from any state: the response, and that nothing else changes; the host can recover `state` from
the response. -/
def Obligations.FinalizeCommandReportsComplement : Prop :=
  (∀ data : Byte, decode (0b10#2 ++ data) = .finalize) ∧ encode .finalize = some 0x200#10 ∧
  (∀ s : State, exec .finalize s = .next { s with response := s.response ++ [~~~s.state] }) ∧
  (∀ v : Word, checksum v = v ^^^ 0xFFFFFFFF#32 ∧ checksum v = v ^^^ Config.xorOut ∧ ~~~(checksum v) = v) ∧
  checksum 0xFFFFFFFF#32 = 0x00000000#32 ∧ checksum 0x00000000#32 = 0xFFFFFFFF#32 ∧
  checksum 0x77B79C2D#32 = 0x884863D2#32

/-- R80, R8: every command answers a next state from every state. So does every move of the host that is no reserved word:
R80 speaks of commands alone, and that taking a response completes when none waits is the model's choice (DESIGN CHOICE, log
entry 4). That no step faults is R80 as the model has it, in the type: `Fault` has no constructor. -/
def Obligations.EveryCommandCompletes : Prop :=
  (∀ (i : Instr) (s : State), i.wf = true → ∃ t, exec i s = .next t) ∧
  (∀ (m : HostMove) (s : State), m.defined = true → ∃ t, serve m s = .next t) ∧
  (∀ (s : State) (f : Fault), step s ≠ .fault f)

/-- R10, R20, R32, R54: what a command leaves unchanged. -/
def Obligations.CommandFrame : Prop :=
  ∀ (i : Instr) (s t : State), exec i s = .next t →
    t.inputs = s.inputs ∧ t.received = s.received ∧
    (i ≠ .finalize → t.response = s.response) ∧
    (i = .finalize → t.state = s.state ∧ t.phase = s.phase)

/-! ## The lifecycle flag (10_state.md R15) -/

/-- R15: who writes `phase`, that a single update of a fresh block never brings back all-ones, and that longer ones can. -/
def Obligations.PhaseFollowsHistory : Prop :=
  (∀ s : State, s.hardwareReset.phase = .initialized) ∧
  (∀ s : State, ∃ t, exec .reset s = .next t ∧ t.phase = .initialized) ∧
  (∀ (s : State) (b : Byte), ∃ t, exec (.update b) s = .next t ∧ t.phase = .accumulating) ∧
  (∀ s : State, ∃ t, exec .finalize s = .next t ∧ t.phase = s.phase) ∧
  (∀ b : Byte, updateByte 0xFFFFFFFF#32 b ≠ 0xFFFFFFFF#32) ∧
  (∃ bs : List Byte, bs ≠ [] ∧ updateBytes 0xFFFFFFFF#32 bs = 0xFFFFFFFF#32 ∧ crc32 bs = crc32 [])

/-- R15: `phase` is a ghost. Runs of any length from states that differ in it alone end alike: in states that differ in it
alone, or in the same refusal. -/
def Obligations.PhaseIsNeverObserved : Prop :=
  ∀ (n : Nat) (s : State) (p : Phase),
    (∀ t, runSteps n s = .next t →
      ∃ q : Phase, runSteps n { s with phase := p } = .next { t with phase := q }) ∧
    (∀ r, runSteps n s = .refused r → runSteps n { s with phase := p } = .refused r)

/-! ## Composite operations and laws (41_composite_ops.md) -/

/-- R65: the stream function and its law for a split stream. -/
def Obligations.StreamUpdateIsAFold : Prop :=
  (∀ s : Word, updateBytes s [] = s) ∧
  (∀ (s : Word) (b : Byte) (rest : List Byte), updateBytes s ([b] ++ rest) = updateBytes (updateByte s b) rest) ∧
  (∀ (s : Word) (xs ys : List Byte), updateBytes s (xs ++ ys) = updateBytes (updateBytes s xs) ys) ∧
  (∀ bs : List Byte, crc32 bs = ~~~(updateBytes 0xFFFFFFFF#32 bs))

/-- R66: `UPDATEB`, its words and its effect. -/
def Obligations.BufferUpdateConsumesItsBytes : Prop :=
  ∀ (bs : List Byte) (s : State),
    (Pseudo.updateB bs).expand.map encode = bs.map (fun b => some (0x100#10 + b.setWidth 10)) ∧
    execAll (Pseudo.updateB bs).expand s =
      .next { s with
        state := updateBytes s.state bs
        phase := if bs = [] then s.phase else .accumulating }

/-- R67, R30: `UPDATEE.w` feeds the byte images of its elements: byte `k` of a little-endian element is bits `8k+7..8k`, a
big-endian one has them the other way round, for `w = 1` the order does not matter and the elements are the bytes. -/
def Obligations.ElementUpdateConsumesByteImages : Prop :=
  (∀ (w : Nat) (elements : List (List Byte)) (s : State), (Pseudo.updateE w elements).wf = true →
    execAll (Pseudo.updateE w elements).expand s = execAll (Pseudo.updateB elements.flatten).expand s) ∧
  (∀ (o : Config.ByteOrder) (w : Nat) (vs : List Nat), 1 ≤ w → (Pseudo.updateE w (elementImages o w vs)).wf = true) ∧
  (∀ w v k : Nat, k < w →
    (elementBytes .little w v)[k]? = some (BitVec.ofNat 8 (v >>> (8 * k))) ∧
    (elementBytes .big w v)[k]? = some (BitVec.ofNat 8 (v >>> (8 * (w - 1 - k))))) ∧
  (∀ (o : Config.ByteOrder) (bs : List Byte), (elementImages o 1 (bs.map BitVec.toNat)).flatten = bs)

/-- R68: a zero-length update issues nothing and changes nothing. -/
def Obligations.ZeroLengthUpdateIsANoOp : Prop :=
  ∀ (s : State) (w : Nat),
    (Pseudo.updateB []).expand = [] ∧ (Pseudo.updateE w []).expand = [] ∧
    execAll (Pseudo.updateB []).expand s = .next s ∧ execAll (Pseudo.updateE w []).expand s = .next s

/-- R69, R11: the meaning of `state` and of a response. From a block whose `state` is that of the byte stream `bs`, any
moves of the host that are no reserved words leave the state of the stream they make of it, and `FINALIZE` then responds
its checksum. The moves take place in the order given; how a step chooses its move while a response waits is in
`StepKeepsTheMeaningOfState`. That a run goes on past taking a response when none waits is the model's choice (DESIGN CHOICE,
log entry 4). -/
def Obligations.StateIsThatOfTheStream : Prop :=
  ∀ (ms : List HostMove) (s : State) (bs : List Byte),
    ms.all HostMove.defined = true → s.state = updateBytes 0xFFFFFFFF#32 bs →
    ∃ t, serveAll ms s = .next t ∧
      t.state = updateBytes 0xFFFFFFFF#32 (ms.foldl streamAfterMove bs) ∧
      exec .finalize t = .next (t.respond (crc32 (ms.foldl streamAfterMove bs)))

/-- R11, R69 for the step itself: if `state` is that of the byte stream `bs`, then after a step it is that of the stream which
the move that took place makes of `bs`, and of `bs` when no move could take place. Which move takes place while a response
waits is DEDUCED in log entry 3, and that a step with none holds the state in log entry 5. -/
def Obligations.StepKeepsTheMeaningOfState : Prop :=
  ∀ (s t : State) (bs : List Byte), s.state = updateBytes 0xFFFFFFFF#32 bs → step s = .next t →
    t.state = updateBytes 0xFFFFFFFF#32
      (match nextMove s.held s.inputs with
        | none => bs
        | some (m, _) => streamAfterMove bs m)

/-- R70: `CALCULATE`, its effect and its one response, from any state, for bytes and for elements. -/
def Obligations.CalculateIsOneShot : Prop :=
  ∀ (s : State) (bs : List Byte),
    execAll (Pseudo.calculate bs).expand s =
      .next { s with
        state := updateBytes 0xFFFFFFFF#32 bs
        phase := if bs = [] then .initialized else .accumulating
        response := s.response ++ [crc32 bs] } ∧
    ∀ (w : Nat) (elements : List (List Byte)), (Pseudo.calculateE w elements).wf = true → elements.flatten = bs →
      execAll (Pseudo.calculateE w elements).expand s = execAll (Pseudo.calculate bs).expand s

/-- R71: the checksum of no bytes. -/
def Obligations.EmptyInputChecksumIsZero : Prop :=
  exec .finalize State.reset = .next { State.reset with response := [0x00000000#32] } ∧ crc32 [] = 0x00000000#32

/-- R72: the check value of "123" and the states on the way. -/
def Obligations.CheckValueOf123 : Prop :=
  crc32 [0x31#8, 0x32#8, 0x33#8] = 0x884863D2#32 ∧
  updateBytes 0xFFFFFFFF#32 [0x31#8] = 0x7C231048#32 ∧
  updateBytes 0xFFFFFFFF#32 [0x31#8, 0x32#8] = 0xB0ACBB32#32 ∧
  updateBytes 0xFFFFFFFF#32 [0x31#8, 0x32#8, 0x33#8] = 0x77B79C2D#32

/-- R73: any number of `FINALIZE` commands respond the same word and change nothing else. -/
def Obligations.FinalizeIsIdempotent : Prop :=
  ∀ (n : Nat) (s : State),
    execAll (List.replicate n .finalize) s = .next { s with response := s.response ++ List.replicate n (~~~s.state) }

/-- R74: a stream fed whole, fed in two parts, and fed in two parts with a `FINALIZE` between them leaves the same state, so
that a `FINALIZE` then responds the same word. -/
def Obligations.UpdatesContinueAfterFinalize : Prop :=
  ∀ (xs ys : List Byte) (s : State), ∃ t u v,
    execAll (Pseudo.updateB (xs ++ ys)).expand s = .next t ∧
    execAll ((Pseudo.updateB xs).expand ++ (Pseudo.updateB ys).expand) s = .next u ∧
    execAll ((Pseudo.updateB xs).expand ++ .finalize :: (Pseudo.updateB ys).expand) s = .next v ∧
    u.state = t.state ∧ v.state = t.state ∧
    exec .finalize t = .next (t.respond (~~~t.state)) ∧
    exec .finalize u = .next (u.respond (~~~t.state)) ∧
    exec .finalize v = .next (v.respond (~~~t.state))

/-- R75: after any commands and a `RESET`, the block answers any further commands as a fresh one does. -/
def Obligations.ResetForgetsThePast : Prop :=
  ∀ (p q : List Instr) (s : State), p.all Instr.wf = true → q.all Instr.wf = true →
    ∃ before t fresh,
      execAll p s = .next before ∧ execAll (p ++ [.reset] ++ q) s = .next t ∧
      execAll q State.reset = .next fresh ∧
      t.response = before.response ++ fresh.response ∧ t.state = fresh.state

/-- R76: one batch update is `n` single-byte updates, one after another. -/
def Obligations.BatchUpdateIsSingleUpdates : Prop :=
  ∀ (bs : List Byte) (s : State),
    execAll (Pseudo.updateB bs).expand s = bs.foldl (fun o b => andThen o (exec (.update b))) (.next s)

/-- R77: `CALCULATE` is a fresh accumulator, one batch update and a `FINALIZE`. -/
def Obligations.CalculateIsFreshUpdateFinalize : Prop :=
  ∀ (bs : List Byte) (s : State),
    execAll (Pseudo.calculate bs).expand s.hardwareReset =
      andThen (execAll (Pseudo.updateB bs).expand s.hardwareReset) (exec .finalize)

/-- R78: the checksum is that of the bit-wise algorithm for every byte sequence; the customary check value; and the residue
of any message followed by its own checksum, least significant byte first. The bit-wise algorithm is of general knowledge
(93_implementation_defined.md K1), PRESUMED in log entry 7; the check value and the residue are the spec's own consequences
(K3), not the source's. -/
def Obligations.ChecksumIsBitwiseCrc32 : Prop :=
  (∀ bs : List Byte, crc32 bs = bitwiseCrc32 bs) ∧
  crc32 [0x31#8, 0x32#8, 0x33#8, 0x34#8, 0x35#8, 0x36#8, 0x37#8, 0x38#8, 0x39#8] = 0xCBF43926#32 ∧
  (∀ bs : List Byte, updateBytes 0xFFFFFFFF#32 (bs ++ bytesLittle 4 (crc32 bs).toNat) = 0xDEBB20E3#32)

/-! ## Reset, the channels and the step (70_reset_and_hazards.md, 30_encoding.md, 20_memory.md) -/

/-- R92, R22: the state after reset. The fields `received` and `inputs` are the model's own and empty by its choice (log
entries 1 and 2). -/
def Obligations.ResetStateHoldsSpecValues : Prop :=
  State.reset.state = 0xFFFFFFFF#32 ∧ State.reset.phase = .initialized ∧ State.reset.response = [] ∧
  State.reset.received = [] ∧ State.reset.inputs = []

/-- R92, R93, R98: hardware reset between commands, whatever the state, and its agreement with the `RESET` command on
`state` and `phase`. That the host's own moves and what it has received stay is the model's choice (log entry 3). -/
def Obligations.HardwareResetActsBetweenCommands : Prop :=
  ∀ (s : State) (ms : List HostMove),
    step (s.withInputs (.hwReset :: ms)) =
      .next { state := 0xFFFFFFFF#32, phase := .initialized, response := [], received := s.received, inputs := ms } ∧
    ∃ t, exec .reset s = .next t ∧ t.state = s.hardwareReset.state ∧ t.phase = s.hardwareReset.phase

/-- R6, R40, R45: when no response is waiting and the host's next move is a command word, the step is that command's
`exec`, the word gone from the host's moves. And the word placed by `withFetchWord` is that next move: that placing it takes
every waiting response first and puts the word in front of the host's moves is the model's choice (DESIGN CHOICE, log entry
1). -/
def Obligations.StepRunsTheDecodedCommand : Prop :=
  (∀ (s : State) (w : CmdWord) (ms : List HostMove), s.response = [] →
    step (s.withInputs (.command w :: ms)) = exec (decode w) (s.withInputs ms)) ∧
  (∀ (s : State) (nbits w : Nat) (i : Instr), decodeTableWord nbits w = some i →
    step (s.withFetchWord nbits w) = exec i { s with response := [], received := s.received ++ s.response })

/-- R46, R40, R99: while a response waits, offered commands are held in their order and not one is lost; the host's taking
the response, or `hw_reset`, takes place before them, and with neither the block waits (log entry 3). -/
def Obligations.PendingResponseHoldsCommands : Prop :=
  ∀ (s : State) (r : Word) (rs : List Word) (ws : List CmdWord) (ms : List HostMove), s.response = r :: rs →
    step (s.withInputs (ws.map .command)) = .next (s.withInputs (ws.map .command)) ∧
    step (s.withInputs (ws.map .command ++ .takeResponse :: ms)) =
      .next { s with response := rs, received := s.received ++ [r], inputs := ws.map .command ++ ms } ∧
    step (s.withInputs (ws.map .command ++ .hwReset :: ms)) = .next (s.hardwareReset.withInputs (ws.map .command ++ ms))

/-- R46, R35: the responses come in the order of their `FINALIZE` commands and none is lost but to hardware reset: in a step
that takes no hardware reset, all responses so far stay, followed by one new word exactly when the step executes a
`FINALIZE`. Hardware reset leaves no response pending (R92): that it discards a word not yet taken and keeps those received is
DEDUCED in log entry 3. -/
def Obligations.ResponsesKeepTheirOrder : Prop :=
  ∀ s t : State, step s = .next t →
    match nextMove s.held s.inputs with
    | none => t.responses = s.responses
    | some (.command w, _) =>
      t.responses = s.responses ++ (if decode w = .finalize then [~~~s.state] else [])
    | some (.takeResponse, _) => t.responses = s.responses
    | some (.hwReset, _) => t.responses = s.received

/-- R35, R40, R95: commands take effect one at a time in the order the host issues them: a step leaves the commands still
to come as they are, or it executes the first of them, no response waiting. That hardware reset and a taken response leave
the held commands to come is DEDUCED in log entry 3. -/
def Obligations.CommandsTakeEffectInIssueOrder : Prop :=
  ∀ s t : State, step s = .next t →
    commandsOf t.inputs = commandsOf s.inputs ∨
    ∃ w, commandsOf s.inputs = w :: commandsOf t.inputs ∧ s.response = [] ∧
      exec (decode w) (s.withInputs t.inputs) = .next t

/-- R15, R46: every step keeps a legal state legal. That the channel is a list, of which a legal state holds at most one word,
is the model's form (DESIGN CHOICE, log entry 10). -/
def Obligations.EveryStepKeepsTheStateLegal : Prop :=
  ∀ s t : State, s.Legal → step s = .next t → t.Legal

/-- R92: the state after reset is legal. -/
def Obligations.ResetStateIsLegal : Prop := State.reset.Legal

/-- R8, R80, R87, R99: a run whose host offers no reserved word never stops, whatever the order of its moves. The model's
choices in it: a run goes on past taking a response when none waits (DESIGN CHOICE, log entry 4), past the end of the host's
moves (DEDUCED, log entry 5), and past held commands to the move that frees them (DEDUCED, log entry 3). -/
def Obligations.DefinedRunsNeverStop : Prop :=
  ∀ (n : Nat) (s : State), s.inputsDefined = true →
    ∃ t, runSteps n s = .next t ∧ t.inputsDefined = true

/-- R63, R7, R35, R46 (D7): a host that issues commands one after another, taking each response, makes the observation that
the fold of `exec` gives: the same `state`, and the same responses in the same order. The host takes after every command, and
that this does nothing when no response waits is the model's choice (DESIGN CHOICE, log entry 4). -/
def Obligations.HostSessionIsTheFoldOfCommands : Prop :=
  ∀ (is : List Instr) (s : State) (later : List HostMove), is.all Instr.wf = true → s.response = [] →
    ∃ t u, execAll is s = .next t ∧
      runSteps (2 * is.length) (s.withInputs (is.flatMap issue ++ later)) = .next u ∧
      u.observation = (s.received ++ t.response, t.state) ∧
      u.phase = t.phase ∧ u.response = [] ∧ u.inputs = later

/-- R58, R96, R98, R20: whatever the two-stage datapath does in finer steps, from a moment between commands, the state it
has committed is the one the completed commands leave one at a time: `s1` is never seen, an update that `hw_reset` abandons
leaves no trace, and no command reads a stale `state`. That the datapath lets no command in while an update is in progress is
the model's choice of an implementation (DESIGN CHOICE, log entry 14), and that an abandoned command is none of the moves that
take place is DEDUCED in log entry 9. -/
def Obligations.PipelineRefinesAtomicCommands : Prop :=
  ∀ (ms : List MicroStep) (p q : Pipeline), p.inFlight = none → p.microAll ms = some q →
    serveAll (committedMoves none ms) p.arch = .next q.arch

/-- R21, R88: a step of one block leaves every other block as it was. That asking for a step of a place with no block changes
nothing is the model's choice (DESIGN CHOICE, log entry 13). -/
def Obligations.OtherBlocksAreUntouched : Prop :=
  ∀ (k : Nat) (sys sys' : System), stepBlock k sys = .next sys' →
    sys'.length = sys.length ∧ (∀ j, j ≠ k → sys'[j]? = sys[j]?) ∧
    (∀ s, sys[k]? = some s → ∃ t, step s = .next t ∧ sys'[k]? = some t)
end

