-- ==== Sys2Proof/Laws/State.lean ====
section
/-! SUPPORT. One lemma per field per named write of the state. -/

namespace Sys2Proof.Machine

@[simp] theorem State.writeState_state (s : State) (v : Word) : (s.writeState v).state = v := rfl
@[simp] theorem State.writeState_phase (s : State) (v : Word) : (s.writeState v).phase = s.phase := rfl
@[simp] theorem State.writeState_response (s : State) (v : Word) : (s.writeState v).response = s.response := rfl
@[simp] theorem State.writeState_received (s : State) (v : Word) : (s.writeState v).received = s.received := rfl
@[simp] theorem State.writeState_inputs (s : State) (v : Word) : (s.writeState v).inputs = s.inputs := rfl

@[simp] theorem State.markInitialized_state (s : State) : (s.markInitialized).state = s.state := rfl
@[simp] theorem State.markInitialized_phase (s : State) : (s.markInitialized).phase = .initialized := rfl
@[simp] theorem State.markInitialized_response (s : State) : (s.markInitialized).response = s.response := rfl
@[simp] theorem State.markInitialized_received (s : State) : (s.markInitialized).received = s.received := rfl
@[simp] theorem State.markInitialized_inputs (s : State) : (s.markInitialized).inputs = s.inputs := rfl

@[simp] theorem State.markAccumulating_state (s : State) : (s.markAccumulating).state = s.state := rfl
@[simp] theorem State.markAccumulating_phase (s : State) : (s.markAccumulating).phase = .accumulating := rfl
@[simp] theorem State.markAccumulating_response (s : State) : (s.markAccumulating).response = s.response := rfl
@[simp] theorem State.markAccumulating_received (s : State) : (s.markAccumulating).received = s.received := rfl
@[simp] theorem State.markAccumulating_inputs (s : State) : (s.markAccumulating).inputs = s.inputs := rfl

@[simp] theorem State.respond_state (s : State) (v : Word) : (s.respond v).state = s.state := rfl
@[simp] theorem State.respond_phase (s : State) (v : Word) : (s.respond v).phase = s.phase := rfl
@[simp] theorem State.respond_response (s : State) (v : Word) : (s.respond v).response = s.response ++ [v] := rfl
@[simp] theorem State.respond_received (s : State) (v : Word) : (s.respond v).received = s.received := rfl
@[simp] theorem State.respond_inputs (s : State) (v : Word) : (s.respond v).inputs = s.inputs := rfl

@[simp] theorem State.withInputs_state (s : State) (ms : List HostMove) : (s.withInputs ms).state = s.state := rfl
@[simp] theorem State.withInputs_phase (s : State) (ms : List HostMove) : (s.withInputs ms).phase = s.phase := rfl
@[simp] theorem State.withInputs_response (s : State) (ms : List HostMove) : (s.withInputs ms).response = s.response := rfl
@[simp] theorem State.withInputs_received (s : State) (ms : List HostMove) : (s.withInputs ms).received = s.received := rfl
@[simp] theorem State.withInputs_inputs (s : State) (ms : List HostMove) : (s.withInputs ms).inputs = ms := rfl

@[simp] theorem State.hardwareReset_state (s : State) : (s.hardwareReset).state = Config.init := rfl
@[simp] theorem State.hardwareReset_phase (s : State) : (s.hardwareReset).phase = .initialized := rfl
@[simp] theorem State.hardwareReset_response (s : State) : (s.hardwareReset).response = [] := rfl
@[simp] theorem State.hardwareReset_received (s : State) : (s.hardwareReset).received = s.received := rfl
@[simp] theorem State.hardwareReset_inputs (s : State) : (s.hardwareReset).inputs = s.inputs := rfl

/-- Taking a response changes the two channels alone. -/
@[simp] theorem State.deliver_state (s : State) : s.deliver.state = s.state := by
  unfold State.deliver; split <;> rfl

@[simp] theorem State.deliver_phase (s : State) : s.deliver.phase = s.phase := by
  unfold State.deliver; split <;> rfl

@[simp] theorem State.deliver_inputs (s : State) : s.deliver.inputs = s.inputs := by
  unfold State.deliver; split <;> rfl

@[simp] theorem State.deliver_response (s : State) : s.deliver.response = s.response.tail := by
  unfold State.deliver; split <;> simp [*]

/-- No word is lost or reordered by a transfer. -/
theorem State.deliver_received_response (s : State) :
    s.deliver.received ++ s.deliver.response = s.received ++ s.response := by
  unfold State.deliver; split <;> simp [*]

@[simp] theorem State.held_iff (s : State) : s.held = true ↔ s.response ≠ [] := by
  simp [State.held]

@[simp] theorem State.held_eq_false (s : State) : s.held = false ↔ s.response = [] := by
  simp [State.held]

end Sys2Proof.Machine
end

