-- ==== Sys2Proof/Laws/Ops.lean ====
section
/-! SUPPORT. What the shared operations can do, once each. -/

namespace Sys2Proof.Machine

@[simp] theorem andThen_next (s : State) (f : State → Host.Outcome State Fault Refusal) :
    andThen (.next s) f = f s := rfl

@[simp] theorem andThen_refused (r : Refusal) (f : State → Host.Outcome State Fault Refusal) :
    andThen (.refused r) f = .refused r := rfl

/-- A sequence answers a next state exactly when both of its parts do. -/
theorem andThen_eq_next {o : Host.Outcome State Fault Refusal} {f : State → Host.Outcome State Fault Refusal} {t : State} :
    andThen o f = .next t ↔ ∃ s, o = .next s ∧ f s = .next t := by
  cases o with
  | next s => simp
  | fault r => cases r
  | refused r => simp

theorem andThen_assoc (o : Host.Outcome State Fault Refusal) (f g : State → Host.Outcome State Fault Refusal) :
    andThen (andThen o f) g = andThen o (fun s => andThen (f s) g) := by
  cases o <;> rfl

@[simp] theorem nextOf_next (s : State) : nextOf (.next s) = some s := rfl

@[simp] theorem nextMove_nil (held : Bool) : nextMove held [] = none := rfl

@[simp] theorem nextMove_takeResponse (held : Bool) (ms : List HostMove) :
    nextMove held (.takeResponse :: ms) = some (.takeResponse, ms) := rfl

@[simp] theorem nextMove_hwReset (held : Bool) (ms : List HostMove) :
    nextMove held (.hwReset :: ms) = some (.hwReset, ms) := rfl

/-- A block that is not held takes the host's first move. -/
@[simp] theorem nextMove_command_free (w : CmdWord) (ms : List HostMove) :
    nextMove false (.command w :: ms) = some (.command w, ms) := rfl

/-- A held block keeps an offered command waiting in its place. -/
@[simp] theorem nextMove_command_held (w : CmdWord) (ms : List HostMove) :
    nextMove true (.command w :: ms) = (nextMove true ms).map fun p => (p.1, .command w :: p.2) := rfl

/-- What the choice of the next move can answer: the first move that may take place, everything else left in order. The
moves passed over are commands, and there are none unless the block is held. -/
theorem nextMove_eq_some {held : Bool} {ms rest : List HostMove} {m : HostMove} (h : nextMove held ms = some (m, rest)) :
    ∃ ws later, ms = ws.map .command ++ m :: later ∧ rest = ws.map .command ++ later ∧
      (held = false → ws = []) ∧ (held = true → ∀ w, m ≠ .command w) := by
  induction ms generalizing m rest with
  | nil => simp at h
  | cons a ms ih =>
    cases a with
    | command w =>
      cases held with
      | false =>
        simp only [nextMove_command_free, Option.some.injEq, Prod.mk.injEq] at h
        obtain ⟨rfl, rfl⟩ := h
        exact ⟨[], ms, by simp⟩
      | true =>
        simp only [nextMove_command_held, Option.map_eq_some_iff] at h
        obtain ⟨⟨m', rest'⟩, h', heq⟩ := h
        obtain ⟨rfl, rfl⟩ := Prod.mk.inj heq
        obtain ⟨ws, later, rfl, rfl, -, hm⟩ := ih h'
        exact ⟨w :: ws, later, by simp, by simp, by simp, hm⟩
    | takeResponse =>
      simp only [nextMove_takeResponse, Option.some.injEq, Prod.mk.injEq] at h
      obtain ⟨rfl, rfl⟩ := h
      exact ⟨[], ms, by simp⟩
    | hwReset =>
      simp only [nextMove_hwReset, Option.some.injEq, Prod.mk.injEq] at h
      obtain ⟨rfl, rfl⟩ := h
      exact ⟨[], ms, by simp⟩

/-- No move can take place exactly when there is none, or the block is held and only commands are left. -/
theorem nextMove_eq_none {held : Bool} {ms : List HostMove} (h : nextMove held ms = none) :
    ∃ ws, ms = ws.map .command ∧ (held = false → ws = []) := by
  induction ms with
  | nil => exact ⟨[], rfl, fun _ => rfl⟩
  | cons a ms ih =>
    cases a with
    | command w =>
      cases held with
      | false => simp at h
      | true =>
        simp only [nextMove_command_held, Option.map_eq_none_iff] at h
        obtain ⟨ws, rfl, -⟩ := ih h
        exact ⟨w :: ws, by simp, by simp⟩
    | takeResponse => simp at h
    | hwReset => simp at h

@[simp] theorem updateBytes_nil (s : Word) : updateBytes s [] = s := rfl

@[simp] theorem updateBytes_cons (s : Word) (b : Byte) (bs : List Byte) :
    updateBytes s (b :: bs) = updateBytes (updateByte s b) bs := rfl

@[simp] theorem bitSteps_zero (c : Word) : bitSteps 0 c = c := rfl

theorem bitSteps_succ (n : Nat) (c : Word) : bitSteps (n + 1) c = bitSteps n (bitStep c) := rfl

@[simp] theorem bitwiseBytes_nil (c : Word) : bitwiseBytes c [] = c := rfl

@[simp] theorem bitwiseBytes_cons (c : Word) (b : Byte) (bs : List Byte) :
    bitwiseBytes c (b :: bs) = bitwiseBytes (bitSteps 8 (c ^^^ b.setWidth 32)) bs := rfl

end Sys2Proof.Machine
end

