-- ==== Sys2Proof/Laws/PerInstr.lean ====
section
/-! SUPPORT. Statements about every instruction as syntax, one lemma per constructor. -/

namespace Sys2Proof.Laws.CanonicalEncoding

/-- An instruction has a word exactly when it is a command, and its word is canonical (R44, R45). -/
def Statement (i : Instr) : Prop :=
  (encode i).isSome = i.wf ∧ ∀ w, encode i = some w → canonical w = true ∧ opField w ≠ 0b11#2

theorem reset : Statement .reset := by
  refine ⟨rfl, fun w h => ?_⟩
  obtain rfl := Option.some.inj h
  decide

theorem update (b : Byte) : Statement (.update b) := by
  refine ⟨rfl, fun w h => ?_⟩
  obtain rfl := Option.some.inj h
  have hop : opField (cmdWord 0b01#2 b) = 0b01#2 := by
    revert b; decide
  simp [canonical, hop]

theorem finalize : Statement .finalize := by
  refine ⟨rfl, fun w h => ?_⟩
  obtain rfl := Option.some.inj h
  decide

theorem reservedOp3 : Statement .reservedOp3 := by
  refine ⟨rfl, fun w h => ?_⟩
  simp [encode] at h

end Sys2Proof.Laws.CanonicalEncoding
end

