-- ==== Sys2Proof/Laws/Step.lean ====
section
/-! SUPPORT. What one command, one move of the host and one step can do, once each. -/

namespace Sys2Proof.Machine

@[simp] theorem exec_reset (s : State) : exec .reset s = .next (s.writeState Config.init).markInitialized := rfl

@[simp] theorem exec_update (b : Byte) (s : State) :
    exec (.update b) s = .next (s.writeState (updateByte s.state b)).markAccumulating := rfl

@[simp] theorem exec_finalize (s : State) : exec .finalize s = .next (s.respond (checksum s.state)) := rfl

@[simp] theorem exec_reservedOp3 (s : State) : exec .reservedOp3 s = .refused .reservedCommand := rfl

/-- Everything a command that answers a next state can be. -/
theorem exec_cases {i : Instr} {s t : State} (h : exec i s = .next t) :
    (i = .reset ∧ t = (s.writeState Config.init).markInitialized) ∨
    (∃ b, i = .update b ∧ t = (s.writeState (updateByte s.state b)).markAccumulating) ∨
    (i = .finalize ∧ t = s.respond (checksum s.state)) := by
  cases i with
  | reset => exact .inl ⟨rfl, by simpa using h.symm⟩
  | update b => exact .inr (.inl ⟨b, rfl, by simpa using h.symm⟩)
  | finalize => exact .inr (.inr ⟨rfl, by simpa using h.symm⟩)
  | reservedOp3 => simp at h

@[simp] theorem serve_command (w : CmdWord) (s : State) : serve (.command w) s = exec (decode w) s := rfl

@[simp] theorem serve_takeResponse (s : State) : serve .takeResponse s = .next s.deliver := rfl

@[simp] theorem serve_hwReset (s : State) : serve .hwReset s = .next s.hardwareReset := rfl

/-- Everything a move of the host that answers a next state can be. -/
theorem serve_cases {m : HostMove} {s t : State} (h : serve m s = .next t) :
    (∃ w, m = .command w ∧ exec (decode w) s = .next t) ∨
    (m = .takeResponse ∧ t = s.deliver) ∨
    (m = .hwReset ∧ t = s.hardwareReset) := by
  cases m with
  | command w => exact .inl ⟨w, rfl, h⟩
  | takeResponse => exact .inr (.inl ⟨rfl, by simpa using h.symm⟩)
  | hwReset => exact .inr (.inr ⟨rfl, by simpa using h.symm⟩)

@[simp] theorem serveAll_nil (s : State) : serveAll [] s = .next s := rfl

@[simp] theorem serveAll_cons (m : HostMove) (ms : List HostMove) (s : State) :
    serveAll (m :: ms) s = andThen (serve m s) (serveAll ms) := rfl

@[simp] theorem execAll_nil (s : State) : execAll [] s = .next s := rfl

@[simp] theorem execAll_cons (i : Instr) (is : List Instr) (s : State) :
    execAll (i :: is) s = andThen (exec i s) (execAll is) := rfl

/-- A sequence of commands is its first part and then its second. -/
theorem execAll_append (is js : List Instr) (s : State) :
    execAll (is ++ js) s = andThen (execAll is s) (execAll js) := by
  induction is generalizing s with
  | nil => rfl
  | cons i is ih => rw [List.cons_append, execAll_cons, execAll_cons, andThen_assoc, funext ih]

/-- A step with no move that can take place holds the state. -/
theorem step_of_none {s : State} (h : nextMove s.held s.inputs = none) : step s = .next s := by
  simp [step, h]

/-- A step takes the next move. -/
theorem step_of_some {s : State} {m : HostMove} {rest : List HostMove} (h : nextMove s.held s.inputs = some (m, rest)) :
    step s = serve m (s.withInputs rest) := by
  simp [step, h]

/-- Everything a step that answers a next state can be. -/
theorem step_cases {s t : State} (h : step s = .next t) :
    (nextMove s.held s.inputs = none ∧ t = s) ∨
    ∃ m rest, nextMove s.held s.inputs = some (m, rest) ∧ serve m (s.withInputs rest) = .next t := by
  cases hm : nextMove s.held s.inputs with
  | none => exact .inl ⟨rfl, by simpa [step_of_none hm] using h.symm⟩
  | some p =>
    obtain ⟨m, rest⟩ := p
    exact .inr ⟨m, rest, rfl, by rwa [step_of_some hm] at h⟩

end Sys2Proof.Machine
end

