-- ==== Sys2Proof/Laws/Run.lean ====
section
/-! SUPPORT. Runs of several steps, and that they are the host's runs of the machine. -/

namespace Sys2Proof.Machine

@[simp] theorem runSteps_zero (s : State) : runSteps 0 s = .next s := rfl

theorem runSteps_succ (n : Nat) (s : State) : runSteps (n + 1) s = andThen (step s) (runSteps n) := rfl

/-- A run is its first part and then its second. -/
theorem runSteps_add (m n : Nat) (s : State) : runSteps (m + n) s = andThen (runSteps m s) (runSteps n) := by
  induction m generalizing s with
  | zero => simp
  | succ m ih => rw [Nat.add_right_comm, runSteps_succ, runSteps_succ, andThen_assoc, funext ih]

theorem core_run_eq_runSteps (n : Nat) (s : core.State) : Host.Core.run core n s = runSteps n s := by
  induction n generalizing s with
  | zero => rfl
  | succ n ih =>
    simp only [Host.Core.run]
    cases h : core.step s with
    | next t => exact (ih t).trans (congrArg (andThen · (runSteps n)) h).symm
    | fault r => exact (congrArg (andThen · (runSteps n)) h).symm
    | refused r => exact (congrArg (andThen · (runSteps n)) h).symm

end Sys2Proof.Machine
end

