-- ==== Sys2Proof/Tests/Slice0.lean ====
section
/-! SUPPORT. Tests: words decoded from the spec's encoding, single steps with results from 95_test_vectors.md, ill-formed
terms refused, and for every statement with hypotheses a state and operands that meet them. -/

namespace Sys2Proof.Tests

open Sys2Proof Sys2Proof.Machine

/-- A block in the middle of a stream, its value from 95_test_vectors.md 1.2. -/
def sample : State := { State.reset with state := 0x77B79C2D#32, phase := .accumulating }

/-- The same block with a response not yet taken. -/
def heldSample : State := { sample with response := [0x884863D2#32] }

/-! ## Well-formedness -/

theorem test_reserved_is_no_command : Instr.reservedOp3.wf = false := by decide

theorem test_update_is_command : (Instr.update 0xFF#8).wf = true := by decide

theorem test_element_width_zero_refused : (Pseudo.updateE 0 [[]]).wf = false := by decide

theorem test_element_of_wrong_length_refused : (Pseudo.calculateE 2 [[0x01#8, 0x00#8], [0x02#8]]).wf = false := by decide

/-! ## Decoding: words written out from R41 and R42, at the boundaries of each row (95_test_vectors.md 2.8) -/

theorem test_decode_reset_first : decode 0b0000000000#10 = .reset := by decide

theorem test_decode_reset_last : decode 0b0011111111#10 = .reset := by decide

theorem test_decode_update_first : decode 0b0100000000#10 = .update 0x00#8 := by decide

theorem test_decode_update_31 : decode 0b0100110001#10 = .update 0x31#8 := by decide

theorem test_decode_update_last : decode 0b0111111111#10 = .update 0xFF#8 := by decide

theorem test_decode_finalize_first : decode 0b1000000000#10 = .finalize := by decide

theorem test_decode_finalize_last : decode 0b1011111111#10 = .finalize := by decide

theorem test_decode_reserved_first : decode 0b1100000000#10 = .reservedOp3 := by decide

theorem test_decode_reserved_last : decode 0b1111111111#10 = .reservedOp3 := by decide

theorem test_wider_than_ten_bits_refused : decodeBits 0x400 = .error .widerThanTenBits := by rfl

theorem test_encode_canonical_words :
    encode .reset = some 0x000#10 ∧ encode (.update 0x31#8) = some 0x131#10 ∧ encode .finalize = some 0x200#10 := by decide

/-! ## One step of each instruction (95_test_vectors.md 2.2, 2.3) -/

theorem test_step_update_from_reset :
    (nextOf (step (State.reset.withFetchWord 16 0x131))).map (·.state) = some 0x7C231048#32 := by decide

/-- The second index uses `s1`, not the state before the byte. -/
theorem test_step_update_uses_intermediate :
    (nextOf (step (({ sample with state := 0x12345678#32 } : State).withFetchWord 16 0x1AB))).map (·.state) =
      some 0x1FC8B738#32 := by decide

theorem test_step_reset_ignores_data :
    (nextOf (step (sample.withFetchWord 16 0x0FF))).map (fun s => (s.state, s.phase, s.response)) =
      some (0xFFFFFFFF#32, .initialized, []) := by decide

theorem test_step_finalize_ignores_data :
    (nextOf (step (sample.withFetchWord 16 0x2A5))).map (fun s => (s.state, s.phase, s.response)) =
      some (0x77B79C2D#32, .accumulating, [0x884863D2#32]) := by decide

theorem test_step_finalize_after_reset :
    (nextOf (step (State.reset.withFetchWord 16 0x200))).map (·.response) = some [0x00000000#32] := by decide

theorem test_step_reserved_refused : step (sample.withFetchWord 16 0x300) = .refused .reservedCommand := by rfl

/-! ## Operand forms, streams and the assembler (95_test_vectors.md 2.7, 2.9; 30_encoding.md R47) -/

theorem test_element_little_endian :
    elementBytes .little 4 0x12345678 = [0x78#8, 0x56#8, 0x34#8, 0x12#8] := by decide

theorem test_element_big_endian :
    elementBytes .big 4 0x12345678 = [0x12#8, 0x34#8, 0x56#8, 0x78#8] := by decide

theorem test_stream_big_endian_element :
    updateBytes Config.init (elementBytes .big 4 0x12345678) = 0xB5F6F167#32 := by decide

theorem test_stream_abc : crc32 [0x61#8, 0x62#8, 0x63#8] = 0x352441C2#32 := by decide

/-- `UPDATE '1' ; x` -/
theorem test_assemble_quoted_with_comment :
    assembleLine .little (mnemonicUpdate ++ [' ', quoteChar, '1', quoteChar, ' ', commentChar, 'x']) =
      some [.update 0x31#8] := by decide

/-- `UPDATE 49` -/
theorem test_assemble_decimal : assembleLine .big (mnemonicUpdate ++ [' ', '4', '9']) = some [.update 0x31#8] := by decide

/-- `UPDATE 256` is out of the range of a byte. -/
theorem test_assemble_out_of_range_refused :
    assembleLine .little (mnemonicUpdate ++ [' ', '2', '5', '6']) = none := by decide

/-- `UPDATEE.2 0x0001, 2` on a big-endian host. -/
theorem test_assemble_elements :
    assembleLine .big (mnemonicUpdate ++ ['E', '.', '2', ' ', '0', 'x', '0', '0', '0', '1', commaChar, ' ', '2']) =
      some [.update 0x00#8, .update 0x01#8, .update 0x00#8, .update 0x02#8] := by decide

/-- `CALCULATE 0x31` -/
theorem test_assemble_calculate :
    assembleLine .little (mnemonicCalculate ++ [' ', '0', 'x', '3', '1']) = some [.reset, .update 0x31#8, .finalize] := by
  decide

/-! ## Witnesses of hypotheses, one per statement that has them -/

theorem test_witness_IgnoredDataBitsChangeNothing :
    (0x0FF#10).toNat ≤ 0x0FF ∧ 0x200 ≤ (0x200#10).toNat ∧ (0x200#10).toNat ≤ 0x2FF ∧ (0x2FF#10).toNat ≤ 0x2FF := by decide

theorem test_witness_DecodeAndEncodeAgree : Instr.reset.wf = true ∧ (Instr.update 0x80#8).wf = true := by decide

theorem test_witness_ReservedWordsAreRefused :
    0x300 ≤ (0x300#10).toNat ∧ 0x300 ≤ (0x3FF#10).toNat ∧ sample.response = [] := by decide

theorem test_witness_ReservedWordsAreRefused_run :
    runSteps 2 (sample.withInputs [.command 0x131#10, .command 0x300#10]) = .refused .reservedCommand := by rfl

theorem test_witness_AssemblyRoundTrip :
    (Instr.update 0xAB#8).wf = true ∧ commentChar.toNat < 0x80 ∧ quoteChar.toNat < 0x80 ∧ (Char.ofNat 0x7F).toNat < 0x80 := by
  decide

/-- The worked inverse of 95_test_vectors.md 2.10. -/
theorem test_witness_DatapathIsInvertible :
    (tableRead 14#4).extractLsb' 28 4 = (nibStep 0xFFFFFFFF#32 1#4).extractLsb' 28 4 := by decide

theorem test_witness_ResetCommandRestoresInitialValue : sample.state = 0x77B79C2D#32 := by decide

theorem test_witness_EveryCommandCompletes :
    Instr.finalize.wf = true ∧ (HostMove.command 0x2FF#10).defined = true ∧ HostMove.hwReset.defined = true := by decide

theorem test_witness_CommandFrame :
    exec .finalize sample = .next { sample with response := [0x884863D2#32] } := by rfl

theorem test_witness_CommandFrame_not_finalize :
    exec .reset sample = .next { sample with state := 0xFFFFFFFF#32, phase := .initialized } ∧
      Instr.reset ≠ Instr.finalize := ⟨rfl, by decide⟩

theorem test_witness_PhaseIsNeverObserved :
    runSteps 1 (sample.withInputs [.takeResponse]) = .next sample ∧
      runSteps 1 (sample.withInputs [.command 0x300#10]) = .refused .reservedCommand := ⟨rfl, rfl⟩

theorem test_witness_ElementUpdateConsumesByteImages :
    (Pseudo.updateE 2 [[0x01#8, 0x00#8], [0x02#8, 0x00#8]]).wf = true ∧ 1 ≤ 1 ∧ 0 < 4 ∧ 3 < 4 := by decide

theorem test_witness_StateIsThatOfTheStream :
    [HostMove.command 0x131#10, .hwReset, .command 0x200#10, .takeResponse, .command 0x0FF#10].all HostMove.defined = true ∧
      sample.state = updateBytes 0xFFFFFFFF#32 [0x31#8, 0x32#8, 0x33#8] := by decide

/-- Held, so that hardware reset takes place before the command. -/
theorem test_witness_StepKeepsTheMeaningOfState_move :
    heldSample.state = updateBytes 0xFFFFFFFF#32 [0x31#8, 0x32#8, 0x33#8] ∧
      nextMove heldSample.held [.command 0x131#10, .hwReset] = some (.hwReset, [.command 0x131#10]) ∧
      step (heldSample.withInputs [.command 0x131#10, .hwReset]) = .next (State.reset.withInputs [.command 0x131#10]) :=
  ⟨by decide, rfl, rfl⟩

theorem test_witness_StepKeepsTheMeaningOfState_none :
    heldSample.state = updateBytes 0xFFFFFFFF#32 [0x31#8, 0x32#8, 0x33#8] ∧
      nextMove heldSample.held [.command 0x131#10] = none ∧
      step (heldSample.withInputs [.command 0x131#10]) = .next (heldSample.withInputs [.command 0x131#10]) :=
  ⟨by decide, rfl, rfl⟩

theorem test_witness_CalculateIsOneShot :
    (Pseudo.calculateE 2 [[0x31#8, 0x32#8]]).wf = true ∧ [[0x31#8, 0x32#8]].flatten = [0x31#8, 0x32#8] := by decide

theorem test_witness_ResetForgetsThePast :
    [Instr.update 0x61#8, .finalize].all Instr.wf = true ∧ [Instr.update 0x31#8, .finalize].all Instr.wf = true := by decide

theorem test_witness_StepRunsTheDecodedCommand :
    sample.response = [] ∧ decodeTableWord 16 0x131 = some (.update 0x31#8) := by decide

theorem test_witness_PendingResponseHoldsCommands : heldSample.response = 0x884863D2#32 :: [] := by decide

theorem test_witness_ResponsesKeepTheirOrder_none :
    step heldSample = .next heldSample ∧ nextMove heldSample.held heldSample.inputs = none := ⟨rfl, rfl⟩

theorem test_witness_ResponsesKeepTheirOrder_command :
    step (sample.withInputs [.command 0x200#10]) = .next heldSample ∧
      nextMove sample.held [.command 0x200#10] = some (.command 0x200#10, []) := ⟨rfl, rfl⟩

theorem test_witness_ResponsesKeepTheirOrder_takeResponse :
    step (heldSample.withInputs [.takeResponse]) = .next { sample with received := [0x884863D2#32] } := by rfl

theorem test_witness_ResponsesKeepTheirOrder_hwReset :
    step (heldSample.withInputs [.command 0x131#10, .hwReset]) =
      .next (State.reset.withInputs [.command 0x131#10]) := by rfl

theorem test_witness_CommandsTakeEffectInIssueOrder :
    step (State.reset.withInputs [.command 0x131#10, .command 0x132#10]) =
      .next { State.reset with
        state := 0x7C231048#32, phase := .accumulating, inputs := [.command 0x132#10] } := by rfl

theorem test_witness_EveryStepKeepsTheStateLegal :
    (State.reset.withInputs [.command 0x200#10]).Legal ∧
      step (State.reset.withInputs [.command 0x200#10]) = .next { State.reset with response := [0x00000000#32] } :=
  ⟨by decide, rfl⟩

theorem test_witness_DefinedRunsNeverStop :
    (heldSample.withInputs [.command 0x131#10, .takeResponse, .command 0x2FF#10]).inputsDefined = true := by decide

theorem test_witness_HostSessionIsTheFoldOfCommands :
    [Instr.reset, .update 0x31#8, .finalize].all Instr.wf = true ∧ sample.response = [] := by decide

theorem test_witness_PipelineRefinesAtomicCommands :
    (Pipeline.mk sample none).inFlight = none ∧
      (Pipeline.mk sample none).microAll [.stageL 0x34#8, .stageH, .finalize, .stageL 0x35#8, .hwReset] =
        some (Pipeline.mk State.reset none) := by decide

theorem test_witness_OtherBlocksAreUntouched :
    stepBlock 1 [State.reset, sample.withInputs [.command 0x000#10]] =
        .next [State.reset, { sample with state := 0xFFFFFFFF#32, phase := .initialized }] ∧
      [State.reset, sample][1]? = some sample ∧ stepBlock 2 [State.reset, sample] = .next [State.reset, sample] :=
  ⟨rfl, rfl, rfl⟩

end Sys2Proof.Tests
end

section
/-! SUPPORT. Which commands and moves of the host complete and what they leave of the host's moves; then the statements of
00_scope.md. -/

namespace Sys2Proof.Machine

/-! ## Completion and frame of one command and of one move -/

/-- R80: a command answers a next state from every state. -/
theorem exec_completes {i : Instr} (hi : i.wf = true) (s : State) : ∃ t, exec i s = .next t := by
  cases i with
  | reset => exact ⟨_, exec_reset s⟩
  | update b => exact ⟨_, exec_update b s⟩
  | finalize => exact ⟨_, exec_finalize s⟩
  | reservedOp3 => simp [Instr.wf] at hi

/-- No command reads or writes the host's moves still to come. -/
theorem exec_inputs {i : Instr} {s t : State} (h : exec i s = .next t) : t.inputs = s.inputs := by
  obtain ⟨-, rfl⟩ | ⟨b, -, rfl⟩ | ⟨-, rfl⟩ := exec_cases h <;> simp

@[simp] theorem HostMove.defined_command (w : CmdWord) : (HostMove.command w).defined = (decode w).wf := rfl

theorem serve_completes {m : HostMove} (hm : m.defined = true) (s : State) : ∃ t, serve m s = .next t := by
  cases m with
  | command w => exact exec_completes hm s
  | takeResponse => exact ⟨_, serve_takeResponse s⟩
  | hwReset => exact ⟨_, serve_hwReset s⟩

theorem serve_inputs {m : HostMove} {s t : State} (h : serve m s = .next t) : t.inputs = s.inputs := by
  obtain ⟨w, -, hw⟩ | ⟨-, rfl⟩ | ⟨-, rfl⟩ := serve_cases h
  · exact exec_inputs hw
  · simp
  · simp

/-! ## Runs of a host that offers no reserved word -/

/-- The next move is one of the host's, and so are the moves left: with no reserved word offered, none is taken or left. -/
theorem nextMove_defined {held : Bool} {ms rest : List HostMove} {m : HostMove}
    (h : nextMove held ms = some (m, rest)) (hms : ms.all HostMove.defined = true) :
    m.defined = true ∧ rest.all HostMove.defined = true := by
  obtain ⟨ws, later, rfl, rfl, -, -⟩ := nextMove_eq_some h
  simp only [List.all_append, List.all_cons, Bool.and_eq_true] at hms ⊢
  obtain ⟨hws, hm, hlater⟩ := hms
  exact ⟨hm, hws, hlater⟩

/-- A step of a host that offers no reserved word completes, and the host still offers none. -/
theorem step_completes_defined {s : State} (hs : s.inputsDefined = true) :
    ∃ t, step s = .next t ∧ t.inputsDefined = true := by
  cases hnext : nextMove s.held s.inputs with
  | none => exact ⟨s, step_of_none hnext, hs⟩
  | some p =>
    obtain ⟨m, rest⟩ := p
    obtain ⟨hm, hrest⟩ := nextMove_defined hnext hs
    obtain ⟨t, ht⟩ := serve_completes hm (s.withInputs rest)
    refine ⟨t, (step_of_some hnext).trans ht, ?_⟩
    rwa [State.inputsDefined, serve_inputs ht]

/-- Progress and preservation along a run: what every step completes from and keeps, every run completes from and keeps. -/
theorem runSteps_completes {P : State → Prop} (hstep : ∀ s, P s → ∃ t, step s = .next t ∧ P t) (n : Nat) {s : State}
    (hs : P s) : ∃ t, runSteps n s = .next t ∧ P t := by
  induction n generalizing s with
  | zero => exact ⟨s, runSteps_zero s, hs⟩
  | succ n ih =>
    obtain ⟨u, hu, hPu⟩ := hstep s hs
    obtain ⟨t, ht, hPt⟩ := ih hPu
    exact ⟨t, by rw [runSteps_succ, hu, andThen_next, ht], hPt⟩

/-- Settles O45: that no reserved word is offered lets every step complete and is kept by it. -/
theorem definedRunsNeverStop : Obligations.DefinedRunsNeverStop :=
  fun n _ hs => runSteps_completes (fun _ => step_completes_defined) n hs

/-! ## The step of a free block, and the word placed by `withFetchWord` -/

/-- A block with no response waiting executes the command the host offers next. -/
theorem step_command_free {s : State} (hs : s.response = []) (w : CmdWord) (ms : List HostMove) :
    step (s.withInputs (.command w :: ms)) = exec (decode w) (s.withInputs ms) := by
  have hfree : (s.withInputs (.command w :: ms)).held = false := (State.held_eq_false _).mpr hs
  have hnext : nextMove (s.withInputs (.command w :: ms)).held (s.withInputs (.command w :: ms)).inputs =
      some (.command w, ms) := by
    rw [hfree, State.withInputs_inputs, nextMove_command_free]
  exact step_of_some hnext

/-- A number decodes when it is a command word, and then as that word does. -/
theorem decodeTableWord_eq_some {nbits w : Nat} {i : Instr} :
    decodeTableWord nbits w = some i ↔ ∃ c, toCmdWord w = .ok c ∧ decode c = i := by
  cases h : toCmdWord w <;> simp [decodeTableWord, decodeBits, h]

/-- A command word is placed in front of the host's moves, every waiting response taken (log entry 1). -/
theorem State.withFetchWord_of_ok {w : Nat} {c : CmdWord} (hc : toCmdWord w = .ok c) (s : State) (nbits : Nat) :
    s.withFetchWord nbits w =
      { s with response := [], received := s.received ++ s.response }.withInputs (.command c :: s.inputs) := by
  simp only [State.withFetchWord, hc, State.withInputs]

/-- Settles O39: a free block executes the word offered next, and `withFetchWord` frees the block and offers its word. -/
theorem stepRunsTheDecodedCommand : Obligations.StepRunsTheDecodedCommand := by
  refine ⟨fun _ w ms hs => step_command_free hs w ms, fun s nbits w i hi => ?_⟩
  obtain ⟨c, hc, rfl⟩ := decodeTableWord_eq_some.mp hi
  rw [State.withFetchWord_of_ok hc]
  exact step_command_free rfl c s.inputs

end Sys2Proof.Machine
end

section
/-! SUPPORT. What every step keeps of a block's state and who influences it; the table and the bit-level CRC-32; then the
statements of 10_state.md. -/

namespace Sys2Proof.Machine

/-! ## Legal states (R15, R46) -/

/-- A command that a free block executes leaves a legal state: `FINALIZE` alone responds, and finds the channel empty. -/
theorem exec_legal {i : Instr} {s t : State} (hs : s.Legal) (hfree : s.response = []) (h : exec i s = .next t) :
    t.Legal := by
  obtain ⟨hphase, hchannel⟩ := hs
  obtain ⟨-, rfl⟩ | ⟨b, -, rfl⟩ | ⟨-, rfl⟩ := exec_cases h
  · exact ⟨fun _ => rfl, hchannel⟩
  · exact ⟨fun hmark => by simp at hmark, hchannel⟩
  · exact ⟨hphase, by simp [hfree]⟩

/-- A transfer shortens the channel and touches neither `state` nor `phase`. -/
theorem State.deliver_legal {s : State} (hs : s.Legal) : s.deliver.Legal := by
  obtain ⟨hphase, hchannel⟩ := hs
  refine ⟨by simpa using hphase, ?_⟩
  rw [State.deliver_response, List.length_tail]
  omega

theorem State.hardwareReset_legal (s : State) : s.hardwareReset.Legal :=
  ⟨fun _ => rfl, by simp⟩

/-- The next move is a command only when no response waits (R46). -/
theorem response_eq_nil_of_nextMove_command {s : State} {w : CmdWord} {rest : List HostMove}
    (h : nextMove s.held s.inputs = some (.command w, rest)) : s.response = [] := by
  obtain ⟨-, -, -, -, -, hheld⟩ := nextMove_eq_some h
  by_contra hne
  exact hheld ((State.held_iff s).mpr hne) w rfl

/-- Settles O43: each kind of move keeps legality, a command because it is accepted only with the channel empty. -/
theorem everyStepKeepsTheStateLegal : Obligations.EveryStepKeepsTheStateLegal := by
  intro s t hs h
  obtain ⟨-, rfl⟩ | ⟨m, rest, hnext, hserve⟩ := step_cases h
  · exact hs
  · have hrest : (s.withInputs rest).Legal := hs
    obtain ⟨w, rfl, hexec⟩ | ⟨-, rfl⟩ | ⟨-, rfl⟩ := serve_cases hserve
    · have hfree : s.response = [] := response_eq_nil_of_nextMove_command hnext
      exact exec_legal hrest hfree hexec
    · exact State.deliver_legal hrest
    · exact State.hardwareReset_legal _

/-! ## The meaning of `state` (R11, R69) -/

/-- A stream is its first part and then its second (R65). -/
theorem updateBytes_append (s : Word) (xs ys : List Byte) :
    updateBytes s (xs ++ ys) = updateBytes (updateBytes s xs) ys := by
  induction xs generalizing s with
  | nil => rfl
  | cons x xs ih => exact ih _

/-- A command makes of `state` what it makes of the byte stream since the last reset. -/
theorem exec_state_of_stream {i : Instr} {s t : State} {bs : List Byte} (hs : s.state = updateBytes Config.init bs)
    (h : exec i s = .next t) : t.state = updateBytes Config.init (streamAfterCommand bs i) := by
  obtain ⟨rfl, rfl⟩ | ⟨b, rfl, rfl⟩ | ⟨rfl, rfl⟩ := exec_cases h
  · rfl
  · simp [streamAfterCommand, updateBytes_append, hs]
  · exact hs

/-- A move of the host makes of `state` what it makes of the byte stream since the last reset. -/
theorem serve_state_of_stream {m : HostMove} {s t : State} {bs : List Byte} (hs : s.state = updateBytes Config.init bs)
    (h : serve m s = .next t) : t.state = updateBytes Config.init (streamAfterMove bs m) := by
  obtain ⟨w, rfl, hexec⟩ | ⟨rfl, rfl⟩ | ⟨rfl, rfl⟩ := serve_cases h
  · exact exec_state_of_stream hs hexec
  · rw [State.deliver_state, hs]
    rfl
  · rfl

/-- Settles O49: the step is the move that takes place, or holds the state. -/
theorem stepKeepsTheMeaningOfState : Obligations.StepKeepsTheMeaningOfState := by
  intro s t bs hs h
  obtain ⟨hnone, rfl⟩ | ⟨m, rest, hnext, hserve⟩ := step_cases h
  · rw [hnone]
    exact hs
  · rw [hnext]
    have hrest : (s.withInputs rest).state = updateBytes Config.init bs := hs
    exact serve_state_of_stream hrest hserve

/-! ## The table and the polynomial (R13) -/

/-- The bit step with its two cases as one XOR. -/
theorem bitStep_eq_xor (c : Word) :
    bitStep c = (c >>> 1) ^^^ (if c.getLsbD 0 then Config.poly else 0#32) := by
  unfold bitStep
  split <;> simp

/-- The bit step is linear over XOR. -/
theorem bitStep_xor (c d : Word) : bitStep (c ^^^ d) = bitStep c ^^^ bitStep d := by
  have hmask : (if (c ^^^ d).getLsbD 0 then Config.poly else 0#32) =
      (if c.getLsbD 0 then Config.poly else 0#32) ^^^ (if d.getLsbD 0 then Config.poly else 0#32) := by
    rw [BitVec.getLsbD_xor]
    cases c.getLsbD 0 <;> cases d.getLsbD 0 <;> simp
  simp only [bitStep_eq_xor, hmask, BitVec.ushiftRight_xor_distrib]
  ac_rfl

theorem bitSteps_xor (n : Nat) (c d : Word) : bitSteps n (c ^^^ d) = bitSteps n c ^^^ bitSteps n d := by
  induction n generalizing c d with
  | zero => rfl
  | succ n ih => simp only [bitSteps_succ, bitStep_xor, ih]

/-- While the bits shifted out are zero, the polynomial is never applied. -/
theorem bitSteps_of_low_bits_zero {n : Nat} {c : Word} (h : ∀ i < n, c.getLsbD i = false) : bitSteps n c = c >>> n := by
  induction n generalizing c with
  | zero => simp
  | succ n ih =>
    have hshift : bitStep c = c >>> 1 := by rw [bitStep, if_neg (by rw [h 0 (by omega)]; decide)]
    have hlow : ∀ i < n, (c >>> 1).getLsbD i = false := fun i hi => by
      rw [BitVec.getLsbD_ushiftRight]
      exact h (1 + i) (by omega)
    rw [bitSteps_succ, hshift, ih hlow, ← BitVec.shiftRight_add, Nat.add_comm]

/-- A word is its index nibble and the rest of it, XORed. -/
theorem xor_nibble_eq (s : Word) (n : Nibble) :
    s ^^^ n.setWidth 32 = (s.extractLsb' 0 4 ^^^ n).setWidth 32 ^^^ ((s >>> 4) <<< 4) := by
  refine BitVec.eq_of_getLsbD_eq fun i hi => ?_
  by_cases hlow : i < 4
  · simp [hlow, hi]
  · have hn : n.getLsbD i = false := BitVec.getLsbD_of_ge n i (by omega)
    simp [hlow, hi, hn, Nat.add_sub_cancel' (Nat.le_of_not_lt hlow)]

/-- R13: an entry of the table is four bit steps of its index. -/
theorem tableRead_eq_bitSteps (i : Nibble) : tableRead i = bitSteps 4 (i.setWidth 32) := by
  revert i; decide

/-- R13: the table is every 16th entry of the 256-entry table. -/
theorem tableRead_eq_t256 (i : Nibble) : tableRead i = t256 (i.setWidth 8 <<< 4) := by
  revert i; decide

theorem tableRead_injective {i j : Nibble} : tableRead i = tableRead j → i = j := by
  revert i j; decide

/-- The nibble step is four bit steps: the low nibble of `s` becomes a table word, the rest is shifted. -/
theorem nibStep_eq_bitSteps (s : Word) (n : Nibble) : nibStep s n = bitSteps 4 (s ^^^ n.setWidth 32) := by
  have hhigh : bitSteps 4 ((s >>> 4) <<< 4) = s >>> 4 := by
    rw [bitSteps_of_low_bits_zero (fun i hi => by simp [hi])]
    exact BitVec.eq_of_getLsbD_eq fun i hi => by simpa using BitVec.lt_of_getLsbD
  rw [xor_nibble_eq, bitSteps_xor, ← tableRead_eq_bitSteps, hhigh]
  rfl

/-- Settles O9: the nibble step of R50 determines the table by its value in the zero state, where the index is the nibble. -/
theorem tableIsForcedByThePolynomial : Obligations.TableIsForcedByThePolynomial := by
  refine ⟨fun i => ⟨tableRead_eq_bitSteps i, tableRead_eq_t256 i⟩, fun _ _ => tableRead_injective, rfl, rfl, rfl,
    by decide, fun other => ⟨fun hstep i => ?_, fun hother s n => ?_⟩⟩
  · have hzero := hstep 0#32 i
    rw [tableRead_eq_bitSteps]
    simpa using hzero
  · rw [hother]
    exact nibStep_eq_bitSteps s n

/-! ## The ghost `phase` (R15) -/

/-- Two outcomes agree but for `phase`: the same stop, or next states that differ in `phase` alone. -/
def AgreeButPhase : Host.Outcome State Fault Refusal → Host.Outcome State Fault Refusal → Prop
  | .next s, o => ∃ q : Phase, o = .next { s with phase := q }
  | .fault r, o => o = .fault r
  | .refused r, o => o = .refused r

/-- A function of the state whose outcome `phase` does not influence. -/
def IgnoresPhase (f : State → Host.Outcome State Fault Refusal) : Prop :=
  ∀ (s : State) (p : Phase), AgreeButPhase (f s) (f { s with phase := p })

theorem agreeButPhase_next (s : State) (q : Phase) : AgreeButPhase (.next s) (.next { s with phase := q }) := ⟨q, rfl⟩

theorem AgreeButPhase.andThen {o o' : Host.Outcome State Fault Refusal} (ho : AgreeButPhase o o')
    {f : State → Host.Outcome State Fault Refusal} (hf : IgnoresPhase f) :
    AgreeButPhase (andThen o f) (andThen o' f) := by
  cases o with
  | next s =>
    obtain ⟨q, rfl⟩ := ho
    exact hf s q
  | fault r => cases r
  | refused r =>
    obtain rfl : o' = .refused r := ho
    rfl

theorem exec_ignoresPhase (i : Instr) : IgnoresPhase (exec i) := by
  intro s p
  cases i with
  | reset => exact ⟨.initialized, rfl⟩
  | update b => exact ⟨.accumulating, rfl⟩
  | finalize => exact ⟨p, rfl⟩
  | reservedOp3 => rfl

theorem State.deliver_withPhase (s : State) (p : Phase) :
    ({ s with phase := p } : State).deliver = { s.deliver with phase := p } := by
  obtain ⟨state, phase, response, received, inputs⟩ := s
  cases response <;> rfl

theorem serve_ignoresPhase (m : HostMove) : IgnoresPhase (serve m) := by
  intro s p
  cases m with
  | command w => exact exec_ignoresPhase (decode w) s p
  | takeResponse => exact ⟨p, congrArg _ (s.deliver_withPhase p)⟩
  | hwReset => exact ⟨.initialized, rfl⟩

/-- Neither the choice of the next move nor the move reads `phase`. -/
theorem step_ignoresPhase : IgnoresPhase step := by
  intro s p
  cases hnext : nextMove s.held s.inputs with
  | none =>
    rw [step_of_none hnext, step_of_none (s := { s with phase := p }) hnext]
    exact agreeButPhase_next s p
  | some move =>
    obtain ⟨m, rest⟩ := move
    rw [step_of_some hnext, step_of_some (s := { s with phase := p }) hnext]
    exact serve_ignoresPhase m (s.withInputs rest) p

theorem runSteps_ignoresPhase (n : Nat) : IgnoresPhase (runSteps n) := by
  induction n with
  | zero => exact agreeButPhase_next
  | succ n ih => exact fun s p => (step_ignoresPhase s p).andThen ih

/-- Settles O22: the two runs agree but for `phase`, whichever way the first one ends. -/
theorem phaseIsNeverObserved : Obligations.PhaseIsNeverObserved := by
  intro n s p
  have hagree := runSteps_ignoresPhase n s p
  refine ⟨fun t ht => ?_, fun r hr => ?_⟩
  · rw [ht] at hagree
    exact hagree
  · rw [hr] at hagree
    exact hagree

/-! ## The commands' frame, and who writes `phase` -/

/-- Settles O20: each command by what it writes. -/
theorem commandFrame : Obligations.CommandFrame := by
  intro i s t h
  obtain ⟨rfl, rfl⟩ | ⟨b, rfl, rfl⟩ | ⟨rfl, rfl⟩ := exec_cases h
  · exact ⟨rfl, rfl, fun _ => rfl, nofun⟩
  · exact ⟨rfl, rfl, fun _ => rfl, nofun⟩
  · exact ⟨rfl, rfl, fun hne => absurd rfl hne, fun _ => ⟨rfl, rfl⟩⟩

/-- R15: one byte never takes the fresh state back to itself. -/
theorem updateByte_init_ne_init (b : Byte) : updateByte Config.init b ≠ Config.init := by
  revert b; decide

/-- R15: four bytes that take the fresh state back to itself. -/
theorem updateBytes_init_eq_init : updateBytes Config.init [0x9D#8, 0x0A#8, 0xD9#8, 0x6D#8] = Config.init := by
  decide

/-- Settles O21: the writes of `phase` are those of the commands' meanings; the longer sequence is four bytes whose checksum is
that of no bytes. -/
theorem phaseFollowsHistory : Obligations.PhaseFollowsHistory :=
  ⟨fun _ => rfl, fun s => ⟨_, exec_reset s, rfl⟩, fun s b => ⟨_, exec_update b s, rfl⟩,
    fun s => ⟨_, exec_finalize s, rfl⟩, updateByte_init_ne_init,
    _, List.cons_ne_nil _ _, updateBytes_init_eq_init, congrArg checksum updateBytes_init_eq_init⟩

/-! ## Hardware reset, and several blocks -/

/-- Settles O37: the values the reset state is defined with. -/
theorem resetStateHoldsSpecValues : Obligations.ResetStateHoldsSpecValues :=
  ⟨rfl, rfl, rfl, rfl, rfl⟩

/-- Everything a step of one block that answers a next system can be. -/
theorem stepBlock_cases {k : Nat} {sys sys' : System} (h : stepBlock k sys = .next sys') :
    (sys[k]? = none ∧ sys' = sys) ∨
    ∃ s t, sys[k]? = some s ∧ step s = .next t ∧ sys' = sys.set k t := by
  unfold stepBlock at h
  split at h
  next hk => exact .inl ⟨hk, by simpa using h.symm⟩
  next s hk =>
    split at h
    next t ht => exact .inr ⟨s, t, hk, ht, by simpa using h.symm⟩
    next r _ => cases r
    next => cases h

/-- Settles O48: the step replaces the block at its own place, or there is none and nothing changes. -/
theorem otherBlocksAreUntouched : Obligations.OtherBlocksAreUntouched := by
  intro k sys sys' h
  obtain ⟨hk, rfl⟩ | ⟨s, t, hk, ht, rfl⟩ := stepBlock_cases h
  · exact ⟨rfl, fun _ _ => rfl, by simp [hk]⟩
  · obtain ⟨hlt, -⟩ := List.getElem?_eq_some_iff.mp hk
    refine ⟨List.length_set, fun j hj => List.getElem?_set_ne hj.symm, fun s' hs' => ⟨t, ?_, ?_⟩⟩
    · obtain rfl : s = s' := Option.some.inj (hk.symm.trans hs')
      exact ht
    · exact List.getElem?_set_self hlt

end Sys2Proof.Machine
end

section
/-! SUPPORT. The byte update as eight bit steps, that it loses nothing, and the commands among the host's moves; then the
statements of 20_memory.md. -/

namespace Sys2Proof.Machine

/-! ## The commands among the host's moves (R35, R40) -/

@[simp] theorem commandsOf_nil : commandsOf [] = [] := rfl

@[simp] theorem commandsOf_command (w : CmdWord) (ms : List HostMove) :
    commandsOf (.command w :: ms) = w :: commandsOf ms := rfl

@[simp] theorem commandsOf_takeResponse (ms : List HostMove) : commandsOf (.takeResponse :: ms) = commandsOf ms := rfl

@[simp] theorem commandsOf_hwReset (ms : List HostMove) : commandsOf (.hwReset :: ms) = commandsOf ms := rfl

/-- Moves that are all commands stand in front of the other commands in their order. -/
@[simp] theorem commandsOf_map_command_append (ws : List CmdWord) (ms : List HostMove) :
    commandsOf (ws.map .command ++ ms) = ws ++ commandsOf ms := by
  induction ws with
  | nil => rfl
  | cons w ws ih => exact congrArg (w :: ·) ih

/-- The next move is a command only where it is the first move of all: a held block passes over commands and takes none. -/
theorem eq_cons_of_nextMove_command {held : Bool} {ms rest : List HostMove} {w : CmdWord}
    (h : nextMove held ms = some (.command w, rest)) : ms = .command w :: rest := by
  obtain ⟨ws, later, rfl, rfl, hfree, hheld⟩ := nextMove_eq_some h
  cases held with
  | false => simp [hfree rfl]
  | true => exact absurd rfl (hheld rfl w)

/-- A move that is no command takes no command from those still to come, wherever it stands among them. -/
theorem commandsOf_of_nextMove {held : Bool} {ms rest : List HostMove} {m : HostMove}
    (h : nextMove held ms = some (m, rest)) (hm : ∀ w, m ≠ .command w) : commandsOf rest = commandsOf ms := by
  obtain ⟨ws, later, rfl, rfl, -, -⟩ := nextMove_eq_some h
  cases m with
  | command w => exact absurd rfl (hm w)
  | takeResponse => simp
  | hwReset => simp

/-- Settles O42: of the moves that can take place, only a command uses one up, and it is the host's first move. -/
theorem commandsTakeEffectInIssueOrder : Obligations.CommandsTakeEffectInIssueOrder := by
  intro s t h
  obtain ⟨-, rfl⟩ | ⟨m, rest, hnext, hserve⟩ := step_cases h
  · exact .inl rfl
  · obtain rfl : t.inputs = rest := serve_inputs hserve
    obtain ⟨w, rfl, hexec⟩ | ⟨rfl, -⟩ | ⟨rfl, -⟩ := serve_cases hserve
    · have hfirst : s.inputs = .command w :: t.inputs := eq_cons_of_nextMove_command hnext
      exact .inr ⟨w, congrArg commandsOf hfirst, response_eq_nil_of_nextMove_command hnext, hexec⟩
    · exact .inl (commandsOf_of_nextMove hnext nofun)
    · exact .inl (commandsOf_of_nextMove hnext nofun)

/-! ## Bit steps lose nothing -/

/-- The bit shifted out comes back as the top bit, because the polynomial has its top bit set. -/
theorem bitStep_getLsbD_top (c : Word) : (bitStep c).getLsbD 31 = c.getLsbD 0 := by
  rw [bitStep_eq_xor, BitVec.getLsbD_xor, BitVec.getLsbD_ushiftRight]
  cases c.getLsbD 0 <;> simp [Config.poly]

theorem bitStep_injective : Function.Injective bitStep := by
  intro c d h
  have hlow : c.getLsbD 0 = d.getLsbD 0 := by
    rw [← bitStep_getLsbD_top c, h, bitStep_getLsbD_top]
  have hshift : c >>> 1 = d >>> 1 := by
    rw [bitStep_eq_xor, bitStep_eq_xor, hlow] at h
    exact (BitVec.xor_left_inj _).mp h
  refine BitVec.eq_of_getLsbD_eq fun i _ => ?_
  cases i with
  | zero => exact hlow
  | succ i => simpa [Nat.add_comm] using congrArg (·.getLsbD i) hshift

theorem bitSteps_injective (n : Nat) : Function.Injective (bitSteps n) := by
  induction n with
  | zero => exact fun _ _ h => h
  | succ n ih => exact ih.comp bitStep_injective

/-! ## The byte update as eight bit steps (R51, R57) -/

theorem setWidth_eq_nibbles (b : Byte) :
    b.setWidth 32 = (lowNibble b).setWidth 32 ^^^ ((highNibble b).setWidth 32 <<< 4) := by
  revert b; decide

/-- Four bit steps bring the high nibble down to where the second nibble step takes it in. -/
theorem bitSteps_four_highNibble (n : Nibble) : bitSteps 4 (n.setWidth 32 <<< 4) = n.setWidth 32 := by
  revert n; decide

/-- R57: a byte update XORs the byte into the register and makes eight bit steps. -/
theorem updateByte_eq_bitSteps (s : Word) (b : Byte) : updateByte s b = bitSteps 8 (s ^^^ b.setWidth 32) := by
  calc updateByte s b
      = bitSteps 4 (bitSteps 4 (s ^^^ (lowNibble b).setWidth 32) ^^^ (highNibble b).setWidth 32) := by
        rw [← nibStep_eq_bitSteps, ← nibStep_eq_bitSteps]
        rfl
    _ = bitSteps 4 (bitSteps 4 (s ^^^ (lowNibble b).setWidth 32 ^^^ (highNibble b).setWidth 32 <<< 4)) := by
        rw [bitSteps_xor 4 (s ^^^ _), bitSteps_four_highNibble]
    _ = bitSteps 8 (s ^^^ b.setWidth 32) := by
        rw [setWidth_eq_nibbles, ← BitVec.xor_assoc]
        rfl

theorem updateByte_injective (b : Byte) : Function.Injective fun s => updateByte s b := by
  intro s d h
  simp only [updateByte_eq_bitSteps] at h
  exact (BitVec.xor_left_inj _).mp (bitSteps_injective 8 h)

theorem updateBytes_injective (bs : List Byte) : Function.Injective fun s => updateBytes s bs := by
  induction bs with
  | nil => exact fun _ _ h => h
  | cons b bs ih => exact ih.comp (updateByte_injective b)

/-! ## The order of bytes and of nibbles (R28, R29) -/

/-- Eight bit steps fix no byte but zero. -/
theorem eq_zero_of_t256_eq_setWidth {d : Byte} : t256 d = d.setWidth 32 → d = 0#8 := by
  revert d; decide

theorem t256_xor (a b : Byte) : t256 (a ^^^ b) = t256 a ^^^ t256 b := by
  rw [t256, BitVec.setWidth_xor, bitSteps_xor]
  rfl

/-- Two bytes that may be exchanged differ by one that eight bit steps fix. -/
theorem eq_of_updateByte_comm {s : Word} {a b : Byte}
    (h : updateByte (updateByte s a) b = updateByte (updateByte s b) a) : a = b := by
  have hcross : t256 a ^^^ b.setWidth 32 = t256 b ^^^ a.setWidth 32 := by
    simp only [updateByte_eq_bitSteps] at h
    have hinner := bitSteps_injective 8 h
    rw [bitSteps_xor, bitSteps_xor, BitVec.xor_assoc, BitVec.xor_assoc] at hinner
    exact (BitVec.xor_right_inj _).mp hinner
  have hfixed : t256 (a ^^^ b) ^^^ (a ^^^ b).setWidth 32 = 0#32 := by
    calc t256 (a ^^^ b) ^^^ (a ^^^ b).setWidth 32
        = (t256 a ^^^ b.setWidth 32) ^^^ (t256 b ^^^ a.setWidth 32) := by
          rw [t256_xor, BitVec.setWidth_xor]
          ac_rfl
      _ = 0#32 := BitVec.xor_eq_zero_iff.mpr hcross
  exact BitVec.xor_eq_zero_iff.mp (eq_zero_of_t256_eq_setWidth (BitVec.xor_eq_zero_iff.mp hfixed))

/-- Settles O14: the bytes after the two hide no difference, and the bytes before them only choose the state they meet. -/
theorem byteOrderOfTheStreamMatters : Obligations.ByteOrderOfTheStreamMatters := by
  intro s xs ys a b
  refine ⟨fun h => ?_, fun h => by rw [h]⟩
  simp only [updateBytes_append] at h
  exact eq_of_updateByte_comm (updateBytes_injective ys h)

/-- Settles O15: both sides evaluated on the three bytes. -/
theorem nibbleOrderMatters : Obligations.NibbleOrderMatters :=
  ⟨rfl, by decide⟩

end Sys2Proof.Machine
end

section
/-! SUPPORT. The fields of a command word, what the decoder and the encoder answer by them, the responses of one step, and the
assembler on one line; then the statements of 30_encoding.md. -/

namespace Sys2Proof

/-! ## The fields of a command word (R41) -/

@[simp] theorem opField_cmdWord (op : BitVec 2) (data : Byte) : opField (cmdWord op data) = op :=
  BitVec.extractLsb'_append_eq_left

@[simp] theorem dataField_cmdWord (op : BitVec 2) (data : Byte) : dataField (cmdWord op data) = data :=
  BitVec.extractLsb'_append_eq_right

/-- A word is its two fields. -/
theorem cmdWord_fields (w : CmdWord) : cmdWord (opField w) (dataField w) = w :=
  (BitVec.extractLsb'_append_extractLsb'_eq_extractLsb' (x := w) (start₁ := 0) (len₁ := 8) (start₂ := 8)
    (len₂ := 2) rfl).trans BitVec.extractLsb'_eq_self

theorem cmdWord_eq_of_fields {w : CmdWord} {op : BitVec 2} {data : Byte} (hop : opField w = op)
    (hdata : dataField w = data) : cmdWord op data = w := by
  rw [← hop, ← hdata, cmdWord_fields]

theorem opField_toNat (w : CmdWord) : (opField w).toNat = w.toNat / 0x100 := by
  have hw := w.isLt
  rw [opField, BitVec.extractLsb'_toNat, Nat.shiftRight_eq_div_pow]
  omega

theorem opField_eq_of_toNat {w : CmdWord} {op : BitVec 2} (h : w.toNat / 0x100 = op.toNat) : opField w = op :=
  BitVec.eq_of_toNat_eq ((opField_toNat w).trans h)

/-- The mask of R42 leaves the `op` field. -/
theorem and_mask_eq (w : CmdWord) : w &&& 0x300#10 = cmdWord (opField w) 0#8 := by
  calc w &&& 0x300#10
      = cmdWord (opField w) (dataField w) &&& cmdWord 0b11#2 0#8 := by rw [cmdWord_fields]; rfl
    _ = cmdWord (opField w &&& 0b11#2) (dataField w &&& 0#8) := BitVec.and_append
    _ = cmdWord (opField w) 0#8 := by
      rw [BitVec.and_zero, show (0b11#2) = BitVec.allOnes 2 from rfl, BitVec.and_allOnes]

/-- R42: selecting a row by mask and match is comparing the `op` field. -/
theorem and_mask_eq_iff (w : CmdWord) (op : BitVec 2) : w &&& 0x300#10 = cmdWord op 0#8 ↔ opField w = op := by
  rw [and_mask_eq]
  refine ⟨fun h => ?_, fun h => by rw [h]⟩
  simpa using congrArg opField h

/-! ## The decoder and the encoder (R42 to R45) -/

/-- R45: what the decoder answers by the `op` field. -/
theorem decode_cases (w : CmdWord) :
    (opField w = 0b00#2 ∧ decode w = .reset) ∨ (opField w = 0b01#2 ∧ decode w = .update (dataField w)) ∨
    (opField w = 0b10#2 ∧ decode w = .finalize) ∨ (opField w = 0b11#2 ∧ decode w = .reservedOp3) := by
  have hop : ∀ op : BitVec 2, op = 0b00#2 ∨ op = 0b01#2 ∨ op = 0b10#2 ∨ op = 0b11#2 := by decide
  obtain h | h | h | h := hop (opField w) <;> simp [decode, h]

theorem decode_eq_reset_iff {w : CmdWord} : decode w = .reset ↔ opField w = 0b00#2 := by
  obtain ⟨hop, hw⟩ | ⟨hop, hw⟩ | ⟨hop, hw⟩ | ⟨hop, hw⟩ := decode_cases w <;> simp [hop, hw]

theorem decode_eq_update_iff {w : CmdWord} {b : Byte} :
    decode w = .update b ↔ opField w = 0b01#2 ∧ dataField w = b := by
  obtain ⟨hop, hw⟩ | ⟨hop, hw⟩ | ⟨hop, hw⟩ | ⟨hop, hw⟩ := decode_cases w <;> simp [hop, hw]

theorem decode_eq_finalize_iff {w : CmdWord} : decode w = .finalize ↔ opField w = 0b10#2 := by
  obtain ⟨hop, hw⟩ | ⟨hop, hw⟩ | ⟨hop, hw⟩ | ⟨hop, hw⟩ := decode_cases w <;> simp [hop, hw]

theorem decode_eq_reservedOp3_iff {w : CmdWord} : decode w = .reservedOp3 ↔ opField w = 0b11#2 := by
  obtain ⟨hop, hw⟩ | ⟨hop, hw⟩ | ⟨hop, hw⟩ | ⟨hop, hw⟩ := decode_cases w <;> simp [hop, hw]

/-- R44: the canonical word of `UPDATE` is its match plus its operand. -/
theorem encode_update (b : Byte) : encode (.update b) = some (0x100#10 + b.setWidth 10) := by
  revert b; decide

/-- R45: decoding undoes encoding. -/
theorem decode_encode {i : Instr} {w : CmdWord} (h : encode i = some w) : decode w = i := by
  cases i with
  | reset => obtain rfl := Option.some.inj h; rfl
  | update b => obtain rfl := Option.some.inj h; simp [decode_eq_update_iff]
  | finalize => obtain rfl := Option.some.inj h; rfl
  | reservedOp3 => cases h

theorem canonicalEncoding (i : Instr) : Laws.CanonicalEncoding.Statement i := by
  cases i with
  | reset => exact Laws.CanonicalEncoding.reset
  | update b => exact Laws.CanonicalEncoding.update b
  | finalize => exact Laws.CanonicalEncoding.finalize
  | reservedOp3 => exact Laws.CanonicalEncoding.reservedOp3

theorem canonical_iff (w : CmdWord) : canonical w = true ↔ opField w = 0b01#2 ∨ dataField w = 0#8 := by
  simp [canonical]

/-- R45: encoding undoes decoding on the canonical words of commands, and only there. -/
theorem encode_decode_iff (w : CmdWord) :
    encode (decode w) = some w ↔ canonical w = true ∧ decode w ≠ .reservedOp3 := by
  constructor
  · intro h
    obtain ⟨-, hcanonical⟩ := canonicalEncoding (decode w)
    refine ⟨(hcanonical w h).1, fun hres => ?_⟩
    rw [hres] at h
    cases h
  · rintro ⟨hcan, hres⟩
    rw [canonical_iff] at hcan
    obtain ⟨hop, hdec⟩ | ⟨hop, hdec⟩ | ⟨hop, hdec⟩ | ⟨hop, hdec⟩ := decode_cases w
    · have hdata : dataField w = 0#8 := by simpa [hop] using hcan
      rw [hdec]
      exact congrArg some (cmdWord_eq_of_fields hop hdata)
    · rw [hdec]
      exact congrArg some (cmdWord_eq_of_fields hop rfl)
    · have hdata : dataField w = 0#8 := by simpa [hop] using hcan
      rw [hdec]
      exact congrArg some (cmdWord_eq_of_fields hop hdata)
    · exact absurd hdec hres

end Sys2Proof

namespace Sys2Proof.Machine

/-- Settles O3: each field's meaning, the two round trips, and the byte update as eight bit steps of `state XOR byte`. -/
theorem decodeAndEncodeAgree : Obligations.DecodeAndEncodeAgree := by
  refine ⟨fun data => ⟨?_, ?_, ?_, ?_⟩, rfl, encode_update, rfl, fun i hi => ?_, encode_decode_iff, fun s b => ?_⟩
  · exact decode_eq_reset_iff.mpr (opField_cmdWord _ data)
  · exact decode_eq_update_iff.mpr ⟨opField_cmdWord _ data, dataField_cmdWord _ data⟩
  · exact decode_eq_finalize_iff.mpr (opField_cmdWord _ data)
  · exact decode_eq_reservedOp3_iff.mpr (opField_cmdWord _ data)
  · obtain ⟨w, hw⟩ := Option.isSome_iff_exists.mp ((canonicalEncoding i).1.trans hi)
    exact ⟨w, hw, decode_encode hw⟩
  · simp [updateByte_eq_bitSteps]

/-! ## Reserved words (R43) -/

theorem decode_of_reserved_range {w : CmdWord} (hw : 0x300 ≤ w.toNat) : decode w = .reservedOp3 := by
  have hlt := w.isLt
  exact decode_eq_reservedOp3_iff.mpr (opField_eq_of_toNat (by rw [BitVec.toNat_ofNat]; omega))

/-- Settles O4: the range is that of one `op`; a step of a free block is the refused `exec`, and a run goes on with nothing
after a refusal. -/
theorem reservedWordsAreRefused : Obligations.ReservedWordsAreRefused := by
  refine ⟨fun w hw => ⟨decode_of_reserved_range hw, fun i hi => ?_⟩, exec_reservedOp3, fun w s ms hw hs => ?_,
    fun n k s r h => ?_⟩
  · obtain rfl : Instr.reservedOp3 = i := (decode_of_reserved_range hw).symm.trans (decode_encode hi)
    cases hi
  · rw [step_command_free hs, decode_of_reserved_range hw, exec_reservedOp3]
  · rw [runSteps_add, h, andThen_refused]

/-! ## Held commands and the responses of one step (R40, R46, R92) -/

/-- A held block passes over the commands offered, and they stay in front of the moves left. -/
theorem nextMove_held_map_command_append (ws : List CmdWord) (ms : List HostMove) :
    nextMove true (ws.map .command ++ ms) = (nextMove true ms).map fun p => (p.1, ws.map .command ++ p.2) := by
  induction ws with
  | nil => simp
  | cons w ws ih =>
    rw [List.map_cons, List.cons_append, nextMove_command_held, ih, Option.map_map]
    rfl

@[simp] theorem State.withInputs_held (s : State) (ms : List HostMove) : (s.withInputs ms).held = s.held := rfl

/-- A held block's step takes the first move behind the offered commands. -/
theorem step_held_map_command_append {s : State} (hs : s.held = true) (ws : List CmdWord) {ms rest : List HostMove}
    {m : HostMove} (h : nextMove true ms = some (m, rest)) :
    step (s.withInputs (ws.map .command ++ ms)) = serve m (s.withInputs (ws.map .command ++ rest)) := by
  have hnext : nextMove (s.withInputs (ws.map .command ++ ms)).held (ws.map .command ++ ms) =
      some (m, ws.map .command ++ rest) := by
    rw [State.withInputs_held, hs, nextMove_held_map_command_append, h]
    rfl
  exact step_of_some hnext

theorem step_held_map_command {s : State} (hs : s.held = true) (ws : List CmdWord) :
    step (s.withInputs (ws.map .command)) = .next (s.withInputs (ws.map .command)) := by
  have hnext : nextMove (s.withInputs (ws.map .command)).held (ws.map .command) = none := by
    rw [State.withInputs_held, hs]
    simpa using nextMove_held_map_command_append ws []
  exact step_of_none hnext

theorem State.deliver_of_cons {s : State} {r : Word} {rs : List Word} (h : s.response = r :: rs) :
    s.deliver = { s with response := rs, received := s.received ++ [r] } := by
  simp only [State.deliver, h]

/-- Settles O40: the next move of a held block is the first one that is no command. -/
theorem pendingResponseHoldsCommands : Obligations.PendingResponseHoldsCommands := by
  intro s r rs ws ms hs
  have hheld : s.held = true := (State.held_iff s).mpr (by simp [hs])
  refine ⟨step_held_map_command hheld ws, ?_, ?_⟩
  · rw [step_held_map_command_append hheld ws (nextMove_takeResponse true ms), serve_takeResponse]
    exact congrArg Host.Outcome.next (State.deliver_of_cons (s := s.withInputs _) hs)
  · rw [step_held_map_command_append hheld ws (nextMove_hwReset true ms), serve_hwReset]
    rfl

/-- R35: `FINALIZE` alone adds a response, behind all those before it. -/
theorem exec_responses {i : Instr} {s t : State} (h : exec i s = .next t) :
    t.responses = s.responses ++ (if i = .finalize then [checksum s.state] else []) := by
  obtain ⟨rfl, rfl⟩ | ⟨b, rfl, rfl⟩ | ⟨rfl, rfl⟩ := exec_cases h <;> simp [State.responses]

/-- Settles O41: a command may respond, a transfer moves a word to the end of those received, hardware reset empties the
channel. -/
theorem responsesKeepTheirOrder : Obligations.ResponsesKeepTheirOrder := by
  intro s t h
  obtain ⟨hnone, rfl⟩ | ⟨m, rest, hnext, hserve⟩ := step_cases h
  · rw [hnone]
  · rw [hnext]
    obtain ⟨w, rfl, hexec⟩ | ⟨rfl, rfl⟩ | ⟨rfl, rfl⟩ := serve_cases hserve
    · exact exec_responses (s := s.withInputs rest) hexec
    · exact State.deliver_received_response _
    · simp [State.responses]

/-! ## Words of each row (R42, R44) -/

/-- Settles O1: the mask leaves the `op` field, by which the decoder answers. -/
theorem opFieldSelectsCommand : Obligations.OpFieldSelectsCommand := by
  intro w
  refine ⟨?_, ?_, ?_, ?_⟩
  · exact decode_eq_reset_iff.trans (and_mask_eq_iff w 0b00#2).symm
  · exact (decode_eq_update_iff.trans (and_iff_left rfl)).trans (and_mask_eq_iff w 0b01#2).symm
  · exact decode_eq_finalize_iff.trans (and_mask_eq_iff w 0b10#2).symm
  · exact decode_eq_reservedOp3_iff.trans (and_mask_eq_iff w 0b11#2).symm

/-- Settles O2: each range is that of one `op`, and the block sees only what a word decodes to. -/
theorem ignoredDataBitsChangeNothing : Obligations.IgnoredDataBitsChangeNothing := by
  refine ⟨fun w hw => ?_, fun w hlow hhigh => ?_, rfl, rfl⟩
  · have hdec : decode w = .reset := decode_eq_reset_iff.mpr (opField_eq_of_toNat (by rw [BitVec.toNat_ofNat]; omega))
    exact ⟨hdec, fun s => congrArg (exec · s) hdec⟩
  · have hdec : decode w = .finalize :=
      decode_eq_finalize_iff.mpr (opField_eq_of_toNat (by rw [BitVec.toNat_ofNat]; omega))
    exact ⟨hdec, fun s => congrArg (exec · s) hdec⟩

/-- Settles O5: each number fits ten bits, and its word is decoded by its fields; bit 10 makes the last too wide. -/
theorem sampleWordsDecode : Obligations.SampleWordsDecode :=
  ⟨rfl, rfl, rfl, rfl, rfl⟩

/-! ## The assembler on the line of a command (R47) -/

/-- The reader of a line goes on inside a word at this character. -/
def isWordChar (c : Char) : Bool := !(c == commentChar || c == quoteChar || c == commaChar || isBlank c)

/-- Characters that are no separators are gathered into the word. -/
theorem tokenize_inWord_append {cs : List Char} (hcs : cs.all isWordChar = true) (acc rest : List Char) :
    tokenize (.inWord acc) (cs ++ rest) = tokenize (.inWord (cs.reverse ++ acc)) rest := by
  induction cs generalizing acc with
  | nil => rfl
  | cons c cs ih =>
    rw [List.all_cons, Bool.and_eq_true] at hcs
    obtain ⟨hc, hcs⟩ := hcs
    simp only [isWordChar, Bool.not_eq_true', Bool.or_eq_false_iff, beq_eq_false_iff_ne] at hc
    simp [tokenize, hc, ih hcs]

/-- A line of `UPDATE` with one operand is the token `UPDATE` and that of the operand. -/
theorem assembleLine_update {text : List Char} {t : Token} {n : Nat} (o : Config.ByteOrder)
    (htext : tokenize (.inWord []) text = some [t]) (hlit : literal 0x100 t = some n) :
    assembleLine o (mnemonicUpdate ++ ' ' :: text) = some [.update (BitVec.ofNat 8 n)] := by
  have htokens : tokenize (.inWord []) (mnemonicUpdate ++ ' ' :: text) = some [.word mnemonicUpdate, t] := by
    rw [tokenize_inWord_append (by decide)]
    have hblank : tokenize (.inWord (mnemonicUpdate.reverse ++ [])) (' ' :: text) =
      (tokenize (.inWord []) text).map (flushWord (mnemonicUpdate.reverse ++ [])) := rfl
    rw [hblank, htext]
    rfl
  have hbytes : byteLiterals [t] = some [BitVec.ofNat 8 n] := by
    have hcomma : t ≠ .comma := by
      rintro rfl
      cases hlit
    simp [byteLiterals, literals, operands, hcomma, hlit]
  rw [assembleLine, htokens, Option.bind_some]
  simp [assembleTokens, hbytes, mnemonicUpdate, mnemonicReset, mnemonicFinalize]

theorem isWordChar_hexDigit (n : Nibble) : isWordChar (hexDigit n) = true := by
  revert n; decide

theorem digitValue_hexDigit (n : Nibble) : digitValue (hexDigit n) = some n.toNat := by
  revert n; decide

theorem tokenize_hexByte (b : Byte) : tokenize (.inWord []) (hexByte b) = some [.word (hexByte b)] := by
  have hchars : (hexByte b).all isWordChar = true := by
    have hzerox : isWordChar '0' = true ∧ isWordChar 'x' = true := by decide
    simp [hexByte, hzerox, isWordChar_hexDigit]
  have hword := tokenize_inWord_append hchars [] []
  rw [List.append_nil, List.append_nil] at hword
  rw [hword, tokenize, flushWord, List.reverse_reverse, if_neg (by simp [hexByte])]

/-- A byte is its nibbles. -/
theorem toNat_eq_nibbles (b : Byte) : b.toNat = (highNibble b).toNat * 16 + (lowNibble b).toNat := by
  have hb := b.isLt
  simp only [highNibble, lowNibble, BitVec.extractLsb'_toNat, Nat.shiftRight_eq_div_pow]
  omega

theorem digits_cons {base n d : Nat} {c : Char} {cs : List Char} (hc : digitValue c = some d) (hd : d < base) :
    digits base n (c :: cs) = digits base (n * base + d) cs := by
  simp [digits, hc, hd]

theorem literal_hexByte (b : Byte) : literal 0x100 (.word (hexByte b)) = some b.toNat := by
  have hnumber : numberLiteral (hexByte b) = some b.toNat := by
    calc numberLiteral (hexByte b)
        = digits 16 0 [hexDigit (highNibble b), hexDigit (lowNibble b)] := rfl
      _ = digits 16 ((0 * 16 + (highNibble b).toNat) * 16 + (lowNibble b).toNat) [] := by
        rw [digits_cons (digitValue_hexDigit _) (highNibble b).isLt,
          digits_cons (digitValue_hexDigit _) (lowNibble b).isLt]
      _ = some b.toNat := by
        rw [Nat.zero_mul, Nat.zero_add, ← toNat_eq_nibbles]
        rfl
  rw [literal, hnumber]
  simpa using b.isLt

/-- Settles O6: the line of `UPDATE` by its operand, a hexadecimal byte or a quoted character; the other two have no operand. -/
theorem assemblyRoundTrip : Obligations.AssemblyRoundTrip := by
  refine ⟨fun i o hi => ?_, fun c o hc => ?_⟩
  · cases i with
    | reset => exact ⟨_, rfl, rfl⟩
    | update b =>
      refine ⟨_, rfl, ?_⟩
      simpa using assembleLine_update o (tokenize_hexByte b) (literal_hexByte b)
    | finalize => exact ⟨_, rfl, rfl⟩
    | reservedOp3 => cases hi
  · have htext : tokenize (.inWord []) [quoteChar, c, quoteChar] = some [.quoted c] := rfl
    have hlit : literal 0x100 (.quoted c) = some c.toNat := if_pos ⟨hc, by omega⟩
    exact assembleLine_update o htext hlit

end Sys2Proof.Machine
end

section
/-! SUPPORT. The nibble step and the byte update as operations on words; a session of the host and the two-stage datapath
against the fold of commands; then the statements of 40_primitive_ops.md. -/

namespace Sys2Proof.Machine

/-! ## The nibble step and the listing (R50, R51, R56) -/

/-- The mask `0x0F` leaves the low nibble. -/
theorem and_low_mask_eq (x : Word) : x &&& 0x0000000F#32 = (x.setWidth 4).setWidth 32 := by
  have hlt : x.toNat % 2 ^ 4 < 2 ^ 32 := by omega
  refine BitVec.eq_of_toNat_eq ?_
  rw [BitVec.toNat_and, BitVec.toNat_setWidth, BitVec.toNat_setWidth, Nat.mod_eq_of_lt hlt]
  exact Nat.and_two_pow_sub_one_eq_mod x.toNat 4

/-- XORing any word with `n` in its low four bits into the state gives the index of R50 there. -/
theorem setWidth_xor_eq_index {x : Word} {n : Nibble} (hx : x.setWidth 4 = n) (s : Word) :
    (s ^^^ x).setWidth 4 = s.extractLsb' 0 4 ^^^ n := by
  rw [BitVec.setWidth_xor, hx, BitVec.setWidth_eq_extractLsb' (by decide)]

/-- The shift of R50 is logical: it brings in four zero bits. -/
theorem shiftRight_top_nibble (s : Word) : (s >>> 4).extractLsb' 28 4 = 0#4 := by
  refine BitVec.eq_of_getLsbD_eq fun i hi => ?_
  have hout : s.getLsbD (4 + (28 + i)) = false := BitVec.getLsbD_of_ge s _ (by omega)
  simp [hout]

/-- The top nibble of the result is that of the table word (R50). -/
theorem nibStep_top_nibble (s : Word) (n : Nibble) :
    (nibStep s n).extractLsb' 28 4 = (tableRead (s.extractLsb' 0 4 ^^^ n)).extractLsb' 28 4 := by
  rw [nibStep, BitVec.extractLsb'_xor, shiftRight_top_nibble, BitVec.xor_zero]

/-- Settles O7: the low four bits of `s XOR n` are the index, and the shift leaves the top nibble to the table word. -/
theorem nibbleStepReadsLowBits : Obligations.NibbleStepReadsLowBits := by
  intro s n
  have hindex : (s ^^^ n.setWidth 32).setWidth 4 = s.extractLsb' 0 4 ^^^ n :=
    setWidth_xor_eq_index (BitVec.setWidth_setWidth_of_le n (by decide)) s
  refine ⟨?_, ?_, shiftRight_top_nibble s, nibStep_top_nibble s n⟩
  · rw [hindex]
    rfl
  · rw [and_low_mask_eq, hindex]

/-- A line pair of the source's listing is the nibble step, whatever the operand has above its low nibble. -/
theorem nibStep_eq_listing {x : Word} {n : Nibble} (hx : x.setWidth 4 = n) (s : Word) :
    nibStep s n = tableRead (((s ^^^ x) &&& 0x0000000F#32).setWidth 4) ^^^ (s >>> 4) := by
  rw [and_low_mask_eq, BitVec.setWidth_setWidth_of_le _ (by decide), BitVec.setWidth_eq, setWidth_xor_eq_index hx]
  rfl

theorem shiftRight_zero_low_nibble (b : Byte) : (b.setWidth 32 >>> 0).setWidth 4 = lowNibble b := by
  revert b; decide

theorem shiftRight_four_low_nibble (b : Byte) : (b.setWidth 32 >>> 4).setWidth 4 = highNibble b := by
  revert b; decide

/-- R56: an arithmetic shift of a sign-extended byte differs above the low nibble alone. -/
theorem sshiftRight_four_low_nibble (b : Byte) : ((b.signExtend 32).sshiftRight 4).setWidth 4 = highNibble b := by
  revert b; decide

/-- Settles O8: each shifted reading of the byte has the nibble of its line pair lowest. -/
theorem byteUpdateIsTheListing : Obligations.ByteUpdateIsTheListing := by
  intro s b entry s1
  have hs1 : nibStep s (lowNibble b) = s1 := nibStep_eq_listing (shiftRight_zero_low_nibble b) s
  have hupdate : updateByte s b = nibStep s1 (highNibble b) := by rw [← hs1]; rfl
  rw [hupdate]
  exact ⟨nibStep_eq_listing (shiftRight_four_low_nibble b) s1,
    nibStep_eq_listing (sshiftRight_four_low_nibble b) s1⟩

/-! ## The byte-wise CRC-32 (R57) -/

/-- A word is its low bits and the rest of it, XORed. -/
theorem eq_low_xor_high (k : Nat) (x : Word) : x = (x.setWidth k).setWidth 32 ^^^ ((x >>> k) <<< k) := by
  refine BitVec.eq_of_getLsbD_eq fun i hi => ?_
  by_cases hlow : i < k
  · simp [hlow, hi]
  · simp [hlow, hi, Nat.add_sub_cancel' (Nat.le_of_not_lt hlow)]

/-- `k` bit steps look the low `k` bits up and shift the rest. -/
theorem bitSteps_eq_low_xor_shift (k : Nat) (x : Word) :
    bitSteps k x = bitSteps k ((x.setWidth k).setWidth 32) ^^^ (x >>> k) := by
  have hhigh : bitSteps k ((x >>> k) <<< k) = x >>> k := by
    rw [bitSteps_of_low_bits_zero (fun i hi => by simp [hi])]
    exact BitVec.eq_of_getLsbD_eq fun i hi => by simpa using BitVec.lt_of_getLsbD
  conv_lhs => rw [eq_low_xor_high k x, bitSteps_xor, hhigh]

theorem setWidth_byte_shiftRight (b : Byte) : b.setWidth 32 >>> 8 = 0#32 := by
  revert b; decide

/-- R57: the byte update is one lookup in the 256-entry table. -/
theorem updateByte_eq_t256 (s : Word) (b : Byte) :
    updateByte s b = t256 ((s ^^^ b.setWidth 32).setWidth 8) ^^^ (s >>> 8) := by
  have hshift : (s ^^^ b.setWidth 32) >>> 8 = s >>> 8 := by
    rw [BitVec.ushiftRight_xor_distrib, setWidth_byte_shiftRight, BitVec.xor_zero]
  rw [updateByte_eq_bitSteps, bitSteps_eq_low_xor_shift, hshift]
  rfl

/-- Settles O10: nibble, byte and table lookup are four and eight bit steps, which look up the bits they shift out. -/
theorem byteUpdateIsEightBitSteps : Obligations.ByteUpdateIsEightBitSteps :=
  fun s n b => ⟨nibStep_eq_bitSteps s n, updateByte_eq_bitSteps s b, updateByte_eq_t256 s b⟩

/-! ## Linearity (R59 (b)) -/

/-- Bit steps of a state with an operand of any width XORed in are linear in the two together. -/
theorem bitSteps_xor_operand {k : Nat} (n : Nat) (s d : Word) (x y : BitVec k) :
    bitSteps n ((s ^^^ d) ^^^ (x ^^^ y).setWidth 32) =
      bitSteps n (s ^^^ x.setWidth 32) ^^^ bitSteps n (d ^^^ y.setWidth 32) := by
  rw [← bitSteps_xor, BitVec.setWidth_xor]
  congr 1
  ac_rfl

theorem tableRead_xor (i j : Nibble) : tableRead (i ^^^ j) = tableRead i ^^^ tableRead j := by
  rw [tableRead_eq_bitSteps, tableRead_eq_bitSteps, tableRead_eq_bitSteps, BitVec.setWidth_xor, bitSteps_xor]

theorem nibStep_xor (s d : Word) (n m : Nibble) : nibStep (s ^^^ d) (n ^^^ m) = nibStep s n ^^^ nibStep d m := by
  simp only [nibStep_eq_bitSteps, bitSteps_xor_operand]

theorem updateByte_xor (s d : Word) (b c : Byte) :
    updateByte (s ^^^ d) (b ^^^ c) = updateByte s b ^^^ updateByte d c := by
  simp only [updateByte_eq_bitSteps, bitSteps_xor_operand]

/-- Settles O12: the table, the nibble step and the byte update are bit steps, which are linear. -/
theorem datapathIsLinear : Obligations.DatapathIsLinear :=
  ⟨tableRead_xor, nibStep_xor, updateByte_xor, rfl, rfl⟩

/-! ## Invertibility (R59 (a)) -/

theorem nibStep_injective (n : Nibble) : Function.Injective fun s => nibStep s n := by
  intro s d h
  simp only [nibStep_eq_bitSteps] at h
  exact (BitVec.xor_left_inj _).mp (bitSteps_injective 4 h)

/-- R59: the table words have pairwise distinct top nibbles. -/
theorem tableRead_top_nibble_injective {i j : Nibble} :
    (tableRead i).extractLsb' 28 4 = (tableRead j).extractLsb' 28 4 → i = j := by
  revert i j; decide

/-- The top nibble of the state after tells the index that was read (R50, R59). -/
theorem index_of_top_nibble {s : Word} {n i : Nibble}
    (h : (tableRead i).extractLsb' 28 4 = (nibStep s n).extractLsb' 28 4) : i = s.extractLsb' 0 4 ^^^ n :=
  tableRead_top_nibble_injective (h.trans (nibStep_top_nibble s n))

theorem nibStep_xor_tableRead (s : Word) (n : Nibble) :
    nibStep s n ^^^ tableRead (s.extractLsb' 0 4 ^^^ n) = s >>> 4 := by
  rw [nibStep, BitVec.xor_comm, ← BitVec.xor_assoc, BitVec.xor_self, BitVec.zero_xor]

/-- Settles O11: bit steps lose nothing and the states are finitely many; the top nibble tells the table word, and taking it
away leaves the shifted state. -/
theorem datapathIsInvertible : Obligations.DatapathIsInvertible := by
  refine ⟨fun n => Finite.injective_iff_bijective.mp (nibStep_injective n),
    fun b => Finite.injective_iff_bijective.mp (updateByte_injective b), fun s n i h => ?_⟩
  obtain rfl := index_of_top_nibble h
  constructor
  · rw [nibStep_xor_tableRead]
    rfl
  · rw [BitVec.xor_assoc, BitVec.xor_self, BitVec.xor_zero]

/-! ## Zero bytes (R53) -/

/-- A state that is its own shift by a byte XORed with `t` is `t` and its shifts: the state's own shifts run out. -/
theorem eq_xor_shifts_of_eq_xor_shift {s t : Word} (h : s = t ^^^ (s >>> 8)) :
    s = t ^^^ (t >>> 8) ^^^ (t >>> 16) ^^^ (t >>> 24) := by
  have hshift (k : Nat) : s >>> k = (t >>> k) ^^^ (s >>> (k + 8)) := by
    conv_lhs => rw [h, BitVec.ushiftRight_xor_distrib, ← BitVec.shiftRight_add, Nat.add_comm 8]
  have hout : s >>> 32 = 0#32 := BitVec.ushiftRight_eq_zero (by decide)
  calc s = t ^^^ (s >>> 8) := h
    _ = t ^^^ ((t >>> 8) ^^^ ((t >>> 16) ^^^ ((t >>> 24) ^^^ (s >>> 32)))) := by
      rw [hshift 8, hshift 16, hshift 24]
    _ = t ^^^ (t >>> 8) ^^^ (t >>> 16) ^^^ (t >>> 24) := by
      rw [hout, BitVec.xor_zero, BitVec.xor_assoc, BitVec.xor_assoc]

/-- Of the states determined by their low byte in this way, only the zero state has the low byte it is made from. -/
theorem eq_zero_of_low_byte_fixed {d : Byte} :
    (t256 d ^^^ (t256 d >>> 8) ^^^ (t256 d >>> 16) ^^^ (t256 d >>> 24)).setWidth 8 = d → d = 0#8 := by
  revert d; decide

theorem updateByte_zero_byte (s : Word) : updateByte s 0#8 = t256 (s.setWidth 8) ^^^ (s >>> 8) := by
  simpa using updateByte_eq_t256 s 0#8

/-- Settles O13: a state that a zero byte leaves unchanged is determined by its low byte, which can only be zero. -/
theorem zeroByteUnseenOnlyInZeroState : Obligations.ZeroByteUnseenOnlyInZeroState := by
  intro s
  refine ⟨fun h => ?_, fun h => by rw [h]; rfl⟩
  have hs := eq_xor_shifts_of_eq_xor_shift (h.symm.trans (updateByte_zero_byte s))
  have hlow : s.setWidth 8 = 0#8 := eq_zero_of_low_byte_fixed (congrArg (BitVec.setWidth 8) hs).symm
  rw [hs, hlow]
  rfl

/-! ## The commands (R52, R53, R54) -/

/-- Settles O16: the row's words decode to it, its canonical word is all zero, and it writes two constants. -/
theorem resetCommandRestoresInitialValue : Obligations.ResetCommandRestoresInitialValue :=
  ⟨fun data => decode_eq_reset_iff.mpr (opField_cmdWord _ data), rfl, exec_reset, fun _ => rfl, fun _ => rfl,
    fun s _ => ⟨_, exec_reset s, rfl, rfl⟩⟩

/-- Settles O17: the word by its round trip, one `exec` by its meaning, and two in a row one after another. -/
theorem updateCommandConsumesOneByte : Obligations.UpdateCommandConsumesOneByte :=
  ⟨fun b => ⟨encode_update b, decode_encode (encode_update b)⟩, exec_update, fun _ _ => rfl, fun _ _ => rfl,
    rfl, rfl, rfl, rfl⟩

/-- R54, R10: the complement is the XOR with `XOROUT`. -/
theorem checksum_eq_xor (v : Word) : checksum v = v ^^^ Config.xorOut :=
  (BitVec.xor_allOnes (x := v)).symm

/-- R54: the host recovers `state` from the response. -/
theorem not_checksum (v : Word) : ~~~(checksum v) = v := BitVec.not_not

/-- Settles O18: the row's words decode to it, and it responds the complement, which loses nothing. -/
theorem finalizeCommandReportsComplement : Obligations.FinalizeCommandReportsComplement :=
  ⟨fun data => decode_eq_finalize_iff.mpr (opField_cmdWord _ data), rfl, exec_finalize,
    fun v => ⟨checksum_eq_xor v, checksum_eq_xor v, not_checksum v⟩, rfl, rfl, rfl⟩

/-! ## A host that takes every response (R63, R7, R46) -/

/-- A block whose host takes every response, against the fold of commands on a block whose responses gather: `earlier` are
the words the host had received before. -/
structure InSession (earlier : List Word) (fold session : State) : Prop where
  state : session.state = fold.state
  phase : session.phase = fold.phase
  idle : session.response = []
  received : session.received = earlier ++ fold.response

theorem InSession.observation {earlier : List Word} {fold session : State} (h : InSession earlier fold session) :
    session.observation = (earlier ++ fold.response, fold.state) := by
  simp [State.observation, State.responses, h.state, h.idle, h.received]

/-- A command has a word, which decodes to it, and the host issues it by that word and one taking of a response. -/
theorem issue_of_wf {i : Instr} (hi : i.wf = true) : ∃ w, issue i = [.command w, .takeResponse] ∧ decode w = i := by
  obtain ⟨w, hw⟩ := Option.isSome_iff_exists.mp ((canonicalEncoding i).1.trans hi)
  exact ⟨w, by simp [issue, hw], decode_encode hw⟩

theorem State.deliver_withInputs (s : State) (ms : List HostMove) :
    (s.withInputs ms).deliver = s.deliver.withInputs ms := by
  obtain ⟨state, phase, response, received, inputs⟩ := s
  cases response <;> rfl

/-- A transfer adds the oldest word of the channel to those received. -/
theorem State.deliver_received (s : State) : s.deliver.received = s.received ++ s.response.take 1 := by
  unfold State.deliver
  split <;> simp [*]

/-- The taking of a response, as the host's first move, takes place whether the block is held or not. -/
theorem step_takeResponse {s : State} {ms : List HostMove} (h : s.inputs = .takeResponse :: ms) :
    step s = .next (s.deliver.withInputs ms) := by
  have hnext : nextMove s.held s.inputs = some (.takeResponse, ms) := by rw [h, nextMove_takeResponse]
  rw [step_of_some hnext, serve_takeResponse, State.deliver_withInputs]

/-- Issuing one command takes two steps: the command's `exec`, and the taking of its response. -/
theorem runSteps_issue {i : Instr} {s t : State} {ms : List HostMove} (hi : i.wf = true) (hs : s.response = [])
    (h : exec i (s.withInputs (.takeResponse :: ms)) = .next t) :
    runSteps 2 (s.withInputs (issue i ++ ms)) = .next (t.deliver.withInputs ms) := by
  obtain ⟨w, hissue, rfl⟩ := issue_of_wf hi
  have hcommand : step (s.withInputs (issue (decode w) ++ ms)) = .next t := by
    rw [hissue]
    exact (step_command_free hs w (.takeResponse :: ms)).trans h
  have htake : step t = .next (t.deliver.withInputs ms) := step_takeResponse (exec_inputs h)
  rw [runSteps_succ, hcommand, andThen_next, runSteps_succ, htake, andThen_next, runSteps_zero]

theorem InSession.withInputs {earlier : List Word} {fold session : State} (h : InSession earlier fold session)
    (ms : List HostMove) : InSession earlier fold (session.withInputs ms) :=
  ⟨h.state, h.phase, h.idle, h.received⟩

/-- A command executed on both sides, its response taken by the host, keeps the two together. -/
theorem InSession.exec_deliver {earlier : List Word} {fold session fold' session' : State} {i : Instr}
    (h : InSession earlier fold session) (hfold : exec i fold = .next fold')
    (hsession : exec i session = .next session') : InSession earlier fold' session'.deliver := by
  obtain ⟨hstate, hphase, hidle, hreceived⟩ := h
  obtain ⟨rfl, rfl⟩ | ⟨b, rfl, rfl⟩ | ⟨rfl, rfl⟩ := exec_cases hfold
  · obtain rfl := Host.Outcome.next.inj hsession
    constructor <;> simp [State.deliver_received, hidle, hreceived]
  · obtain rfl := Host.Outcome.next.inj hsession
    constructor <;> simp [State.deliver_received, hstate, hidle, hreceived]
  · obtain rfl := Host.Outcome.next.inj hsession
    constructor <;> simp [State.deliver_received, hstate, hphase, hidle, hreceived]

/-- The fold of commands and the host's session of them end together, after two steps a command. -/
theorem InSession.run {earlier : List Word} {fold session : State} (h : InSession earlier fold session)
    {is : List Instr} (his : is.all Instr.wf = true) (later : List HostMove) :
    ∃ fold' session', execAll is fold = .next fold' ∧
      runSteps (2 * is.length) (session.withInputs (is.flatMap issue ++ later)) = .next (session'.withInputs later) ∧
      InSession earlier fold' session' := by
  induction is generalizing fold session with
  | nil => exact ⟨fold, session, rfl, rfl, h⟩
  | cons i is ih =>
    rw [List.all_cons, Bool.and_eq_true] at his
    obtain ⟨hi, his⟩ := his
    obtain ⟨fold₁, hfold₁⟩ := exec_completes hi fold
    obtain ⟨session₁, hsession₁⟩ :=
      exec_completes hi (session.withInputs (.takeResponse :: (is.flatMap issue ++ later)))
    have h₁ : InSession earlier fold₁ session₁.deliver := (h.withInputs _).exec_deliver hfold₁ hsession₁
    obtain ⟨fold', session', hfold', hsession', h'⟩ := ih h₁ his
    refine ⟨fold', session', ?_, ?_, h'⟩
    · rw [execAll_cons, hfold₁, andThen_next, hfold']
    · rw [List.length_cons, Nat.mul_succ, Nat.add_comm, runSteps_add, List.flatMap_cons, List.append_assoc,
        runSteps_issue hi h.idle hsession₁, andThen_next, hsession']

/-- Settles O46: a block with no response waiting starts a session with itself. -/
theorem hostSessionIsTheFoldOfCommands : Obligations.HostSessionIsTheFoldOfCommands := by
  intro is s later his hs
  have hstart : InSession s.received s s := ⟨rfl, rfl, hs, by rw [hs, List.append_nil]⟩
  obtain ⟨t, u, ht, hu, htu⟩ := hstart.run his later
  exact ⟨t, u.withInputs later, ht, hu, (htu.withInputs later).observation, htu.phase, htu.idle, rfl⟩

/-! ## The two-stage datapath (R58, R96, R98, R20) -/

/-- What stage L makes of a byte: `s1`, and the nibble left for stage H (R20). -/
def afterStageL (s : Word) (b : Byte) : Word × Nibble := (nibStep s (lowNibble b), highNibble b)

/-- The datapath holds what stage L made of the byte of the `UPDATE` in progress, or nothing between commands. -/
def Pipeline.InProgress (p : Pipeline) (b : Option Byte) : Prop :=
  p.inFlight = b.map (afterStageL p.arch.state)

theorem Pipeline.inProgress_none {p : Pipeline} : p.InProgress none ↔ p.inFlight = none := Iff.rfl

/-- The word that stage H commits decodes to the `UPDATE` of its byte. -/
theorem decode_updateWord (b : Byte) : decode (cmdWord 0b01#2 b) = .update b :=
  decode_encode (i := .update b) rfl

/-- Every step that the datapath can take answers a datapath with an update in progress or none, and serves the moves it
completes: none, or the one that is committed. -/
theorem Pipeline.micro_refines {p q : Pipeline} {m : MicroStep} {b : Option Byte} (hp : p.InProgress b)
    (h : p.micro m = some q) : ∃ b', q.InProgress b' ∧
      ∀ ms, serveAll (committedMoves b (m :: ms)) p.arch = serveAll (committedMoves b' ms) q.arch := by
  obtain ⟨arch, inFlight⟩ := p
  obtain rfl : inFlight = b.map (afterStageL arch.state) := hp
  cases m with
  | stageL x =>
    cases b with
    | none =>
      obtain rfl := Option.some.inj h
      exact ⟨some x, rfl, fun _ => rfl⟩
    | some _ => cases h
  | stageH =>
    cases b with
    | none => cases h
    | some x =>
      obtain rfl := Option.some.inj h
      refine ⟨none, rfl, fun ms => ?_⟩
      have hcommit : serve (.command (cmdWord 0b01#2 x)) arch =
          .next (arch.writeState (updateByte arch.state x)).markAccumulating := by
        rw [serve_command, decode_updateWord, exec_update]
      exact congrArg (andThen · (serveAll (committedMoves none ms))) hcommit
  | reset =>
    cases b with
    | none =>
      obtain rfl := Option.some.inj h
      exact ⟨none, rfl, fun _ => rfl⟩
    | some _ => cases h
  | finalize =>
    cases b with
    | none =>
      obtain rfl := Option.some.inj h
      exact ⟨none, rfl, fun _ => rfl⟩
    | some _ => cases h
  | hwReset =>
    obtain rfl : _ = q := by cases b <;> exact Option.some.inj h
    exact ⟨none, rfl, fun _ => rfl⟩

/-- The committed state is the one the completed moves leave, an `UPDATE` in progress at the start counting when it
commits. -/
theorem Pipeline.microAll_refines {ms : List MicroStep} {p q : Pipeline} {b : Option Byte} (hp : p.InProgress b)
    (h : p.microAll ms = some q) : serveAll (committedMoves b ms) p.arch = .next q.arch := by
  induction ms generalizing p b with
  | nil =>
    obtain rfl := Option.some.inj h
    rfl
  | cons m ms ih =>
    obtain ⟨p', hmicro, hrest⟩ := Option.bind_eq_some_iff.mp h
    obtain ⟨b', hp', hserve⟩ := Pipeline.micro_refines hp hmicro
    rw [hserve, ih hp' hrest]

/-- Settles O47: between commands no update is in progress. -/
theorem pipelineRefinesAtomicCommands : Obligations.PipelineRefinesAtomicCommands :=
  fun _ _ _ hp h => Pipeline.microAll_refines (Pipeline.inProgress_none.mpr hp) h

end Sys2Proof.Machine
end

section
/-! SUPPORT. What a buffer of bytes makes of a block, the byte images of elements, a block after `RESET` against a fresh one,
and the residue of a stream followed by its own checksum; then the statements of 41_composite_ops.md. -/

namespace Sys2Proof.Machine

/-! ## The stream (R65, R71, R72) -/

/-- Settles O23: the split is `updateBytes_append`; the rest is how `UpdateBytes` and `CRC32` are defined. -/
theorem streamUpdateIsAFold : Obligations.StreamUpdateIsAFold :=
  ⟨updateBytes_nil, fun _ _ _ => rfl, updateBytes_append, fun _ => rfl⟩

/-- Settles O29: the complement of the initial value is zero. -/
theorem emptyInputChecksumIsZero : Obligations.EmptyInputChecksumIsZero :=
  ⟨exec_finalize State.reset, rfl⟩

/-- Settles O30: each value evaluated. -/
theorem checkValueOf123 : Obligations.CheckValueOf123 :=
  ⟨by decide, by decide, by decide, by decide⟩

/-! ## Sequences of commands (R63, R80) -/

@[simp] theorem andThen_next_right (o : Host.Outcome State Fault Refusal) : andThen o .next = o := by
  cases o <;> rfl

@[simp] theorem execAll_singleton (i : Instr) : execAll [i] = exec i :=
  funext fun s => andThen_next_right (exec i s)

theorem execAll_completes {is : List Instr} (his : is.all Instr.wf = true) (s : State) : ∃ t, execAll is s = .next t := by
  induction is generalizing s with
  | nil => exact ⟨s, rfl⟩
  | cons i is ih =>
    rw [List.all_cons, Bool.and_eq_true] at his
    obtain ⟨hi, his⟩ := his
    obtain ⟨u, hu⟩ := exec_completes hi s
    obtain ⟨t, ht⟩ := ih his u
    exact ⟨t, by rw [execAll_cons, hu, andThen_next, ht]⟩

theorem exec_finalize_of_state {s : State} {v : Word} (hs : s.state = v) :
    exec .finalize s = .next (s.respond (~~~v)) := by
  rw [exec_finalize, hs, checksum]

/-- Settles O31: each `FINALIZE` puts one more word behind the others and leaves `state` for the next. -/
theorem finalizeIsIdempotent : Obligations.FinalizeIsIdempotent := by
  intro n s
  induction n generalizing s with
  | zero => simp
  | succ n ih =>
    rw [List.replicate_succ, execAll_cons, exec_finalize, andThen_next, ih]
    simp [State.respond, checksum, List.replicate_succ]

/-! ## A buffer of bytes (R66, R68, R74, R76) -/

/-- The block after it has taken in the bytes `bs` (R66): no byte leaves `phase` as it is (R68). -/
def State.consume (s : State) (bs : List Byte) : State :=
  { s with
    state := updateBytes s.state bs
    phase := if bs = [] then s.phase else .accumulating }

@[simp] theorem State.consume_state (s : State) (bs : List Byte) : (s.consume bs).state = updateBytes s.state bs := rfl

@[simp] theorem State.consume_nil (s : State) : s.consume [] = s := rfl

theorem State.consume_cons (s : State) (b : Byte) (bs : List Byte) :
    s.consume (b :: bs) = ((s.writeState (updateByte s.state b)).markAccumulating).consume bs := by
  simp [State.consume, State.writeState, State.markAccumulating]

/-- One `UPDATE` per byte takes the bytes in. -/
theorem execAll_map_update (bs : List Byte) (s : State) : execAll (bs.map .update) s = .next (s.consume bs) := by
  induction bs generalizing s with
  | nil => rfl
  | cons b bs ih => rw [List.map_cons, execAll_cons, exec_update, andThen_next, ih, State.consume_cons]

theorem execAll_updateB (bs : List Byte) (s : State) : execAll (Pseudo.updateB bs).expand s = .next (s.consume bs) :=
  execAll_map_update bs s

/-- Settles O24: the words are those of `UPDATE`, and one after another they take the bytes in. -/
theorem bufferUpdateConsumesItsBytes : Obligations.BufferUpdateConsumesItsBytes := by
  refine fun bs s => ⟨?_, execAll_updateB bs s⟩
  rw [Pseudo.expand, List.map_map]
  exact List.map_congr_left fun b _ => encode_update b

/-- Settles O26: no byte makes no command. -/
theorem zeroLengthUpdateIsANoOp : Obligations.ZeroLengthUpdateIsANoOp :=
  fun s _ => ⟨rfl, rfl, execAll_nil s, execAll_nil s⟩

/-- Settles O32: taking in `xs` and then `ys` is taking in `xs ++ ys`, and a `FINALIZE` between leaves `state` alone. -/
theorem updatesContinueAfterFinalize : Obligations.UpdatesContinueAfterFinalize := by
  intro xs ys s
  have hsplit : updateBytes (updateBytes s.state xs) ys = updateBytes s.state (xs ++ ys) :=
    (updateBytes_append s.state xs ys).symm
  refine ⟨s.consume (xs ++ ys), (s.consume xs).consume ys,
    ((s.consume xs).respond (checksum (s.consume xs).state)).consume ys,
    execAll_updateB _ s, ?_, ?_, hsplit, hsplit, exec_finalize _, exec_finalize_of_state hsplit,
    exec_finalize_of_state hsplit⟩
  · rw [execAll_append, execAll_updateB, andThen_next, execAll_updateB]
  · rw [execAll_append, execAll_updateB, andThen_next, execAll_cons, exec_finalize, andThen_next, execAll_updateB]

/-- Updates one after another from any outcome are a sequence of commands from it. -/
theorem foldl_update_eq_execAll (bs : List Byte) (o : Host.Outcome State Fault Refusal) :
    bs.foldl (fun o b => andThen o (exec (.update b))) o = andThen o (execAll (bs.map .update)) := by
  induction bs generalizing o with
  | nil => exact (andThen_next_right o).symm
  | cons b bs ih => exact (ih _).trans (andThen_assoc o _ _)

/-- Settles O34: the updates one after another start from the next state `s`. -/
theorem batchUpdateIsSingleUpdates : Obligations.BatchUpdateIsSingleUpdates :=
  fun bs s => (foldl_update_eq_execAll bs (.next s)).symm

/-! ## The byte images of elements (R67, R30) -/

@[simp] theorem bytesLittle_length (w v : Nat) : (bytesLittle w v).length = w := by
  induction w generalizing v with
  | zero => rfl
  | succ w ih => exact congrArg Nat.succ (ih _)

@[simp] theorem elementBytes_length (o : Config.ByteOrder) (w v : Nat) : (elementBytes o w v).length = w := by
  cases o with
  | little => exact bytesLittle_length w v
  | big => exact List.length_reverse.trans (bytesLittle_length w v)

theorem elementImages_wf (o : Config.ByteOrder) {w : Nat} (hw : 1 ≤ w) (vs : List Nat) :
    elementsWf w (elementImages o w vs) = true := by
  simp [elementsWf, elementImages, hw]

/-- Byte `k`, the least significant being byte 0, is bits `8k+7..8k`. -/
theorem bytesLittle_getElem? {w k : Nat} (hk : k < w) (v : Nat) :
    (bytesLittle w v)[k]? = some (BitVec.ofNat 8 (v >>> (8 * k))) := by
  induction w generalizing v k with
  | zero => omega
  | succ w ih =>
    cases k with
    | zero => rfl
    | succ k =>
      rw [bytesLittle, List.getElem?_cons_succ, ih (by omega), ← Nat.shiftRight_eq_div_pow, ← Nat.shiftRight_add,
        Nat.mul_succ, Nat.add_comm]

theorem bytesBig_getElem? {w k : Nat} (hk : k < w) (v : Nat) :
    (bytesBig w v)[k]? = some (BitVec.ofNat 8 (v >>> (8 * (w - 1 - k)))) := by
  rw [bytesBig, List.getElem?_reverse (by rwa [bytesLittle_length]), bytesLittle_length,
    bytesLittle_getElem? (by omega)]

/-- R67: an element of one byte is that byte, in either order. -/
theorem elementBytes_one (o : Config.ByteOrder) (b : Byte) : elementBytes o 1 b.toNat = [b] := by
  have hbyte : [BitVec.ofNat 8 b.toNat] = [b] := by simp
  cases o with
  | little => exact hbyte
  | big => exact hbyte

theorem elementImages_one_flatten (o : Config.ByteOrder) (bs : List Byte) :
    (elementImages o 1 (bs.map BitVec.toNat)).flatten = bs := by
  induction bs with
  | nil => rfl
  | cons b bs ih =>
    rw [List.map_cons, elementImages, List.map_cons, List.flatten_cons, elementBytes_one]
    exact congrArg (b :: ·) ih

/-- Settles O25: the expansions are the same commands, and the bytes of an element are found by their place. -/
theorem elementUpdateConsumesByteImages : Obligations.ElementUpdateConsumesByteImages :=
  ⟨fun _ _ _ _ => rfl, fun o _ vs hw => elementImages_wf o hw vs,
    fun _ v _ hk => ⟨bytesLittle_getElem? hk v, bytesBig_getElem? hk v⟩, elementImages_one_flatten⟩

/-! ## The meaning of `state` along the host's moves (R69, R11) -/

/-- Moves that are no reserved words complete and make of `state` what they make of the byte stream. -/
theorem serveAll_state_of_stream {ms : List HostMove} {s : State} {bs : List Byte}
    (hms : ms.all HostMove.defined = true) (hs : s.state = updateBytes Config.init bs) :
    ∃ t, serveAll ms s = .next t ∧ t.state = updateBytes Config.init (ms.foldl streamAfterMove bs) := by
  induction ms generalizing s bs with
  | nil => exact ⟨s, rfl, hs⟩
  | cons m ms ih =>
    rw [List.all_cons, Bool.and_eq_true] at hms
    obtain ⟨hm, hms⟩ := hms
    obtain ⟨u, hu⟩ := serve_completes hm s
    obtain ⟨t, ht, hstate⟩ := ih hms (serve_state_of_stream hs hu)
    exact ⟨t, by rw [serveAll_cons, hu, andThen_next, ht], hstate⟩

/-- Settles O27: `FINALIZE` responds the complement of a `state` that is the stream's. -/
theorem stateIsThatOfTheStream : Obligations.StateIsThatOfTheStream := by
  intro ms s bs hms hs
  obtain ⟨t, ht, hstate⟩ := serveAll_state_of_stream hms hs
  exact ⟨t, ht, hstate, exec_finalize_of_state hstate⟩

/-! ## `CALCULATE` (R70, R77) -/

/-- The expansion of `CALCULATE` is `RESET`, `UPDATEB` and `FINALIZE`. -/
theorem execAll_calculate (bs : List Byte) (s : State) :
    execAll (Pseudo.calculate bs).expand s =
      andThen (exec .reset s) fun t => andThen (execAll (Pseudo.updateB bs).expand t) (exec .finalize) := by
  have hrest : execAll ((Pseudo.updateB bs).expand ++ [.finalize]) =
      fun t => andThen (execAll (Pseudo.updateB bs).expand t) (exec .finalize) :=
    funext fun t => by rw [execAll_append, execAll_singleton]
  exact congrArg (andThen (exec .reset s)) hrest

/-- Settles O28: the bytes are taken in from the initial value that `RESET` leaves; elements have the same expansion as
their bytes. -/
theorem calculateIsOneShot : Obligations.CalculateIsOneShot := by
  refine fun s bs => ⟨?_, fun _ _ _ helements => by rw [← helements]; rfl⟩
  rw [execAll_calculate, exec_reset, andThen_next, execAll_updateB]
  rfl

/-- Settles O35: `RESET` changes nothing after hardware reset. -/
theorem calculateIsFreshUpdateFinalize : Obligations.CalculateIsFreshUpdateFinalize := by
  intro bs s
  have hfresh : exec .reset s.hardwareReset = .next s.hardwareReset := rfl
  rw [execAll_calculate, hfresh, andThen_next]

/-! ## A block after `RESET` and a fresh one (R75) -/

/-- A block that has run before, against one that has not: the same `state`, and the words `earlier` in front of the same
responses. -/
structure BehaveAlike (earlier : List Word) (used fresh : State) : Prop where
  state : used.state = fresh.state
  response : used.response = earlier ++ fresh.response

/-- A command executed on both blocks keeps them alike. -/
theorem BehaveAlike.after_exec {earlier : List Word} {used fresh used' fresh' : State} {i : Instr}
    (h : BehaveAlike earlier used fresh) (hused : exec i used = .next used') (hfresh : exec i fresh = .next fresh') :
    BehaveAlike earlier used' fresh' := by
  obtain ⟨hstate, hresponse⟩ := h
  obtain ⟨rfl, rfl⟩ | ⟨b, rfl, rfl⟩ | ⟨rfl, rfl⟩ := exec_cases hused
  · obtain rfl := Host.Outcome.next.inj hfresh
    exact ⟨rfl, hresponse⟩
  · obtain rfl := Host.Outcome.next.inj hfresh
    exact ⟨congrArg (updateByte · b) hstate, hresponse⟩
  · obtain rfl := Host.Outcome.next.inj hfresh
    exact ⟨hstate, by simp [hstate, hresponse]⟩

theorem BehaveAlike.after_execAll {earlier : List Word} {used fresh used' fresh' : State} {is : List Instr}
    (h : BehaveAlike earlier used fresh) (hused : execAll is used = .next used')
    (hfresh : execAll is fresh = .next fresh') : BehaveAlike earlier used' fresh' := by
  induction is generalizing used fresh with
  | nil =>
    obtain rfl := Host.Outcome.next.inj hused
    obtain rfl := Host.Outcome.next.inj hfresh
    exact h
  | cons i is ih =>
    obtain ⟨used₁, hused₁, hused⟩ := andThen_eq_next.mp hused
    obtain ⟨fresh₁, hfresh₁, hfresh⟩ := andThen_eq_next.mp hfresh
    exact ih (h.after_exec hused₁ hfresh₁) hused hfresh

/-- Settles O33: `RESET` leaves the initial value behind the responses of `p`, and `q` keeps the two blocks alike. -/
theorem resetForgetsThePast : Obligations.ResetForgetsThePast := by
  intro p q s hp hq
  obtain ⟨before, hbefore⟩ := execAll_completes hp s
  obtain ⟨t, ht⟩ := execAll_completes hq (before.writeState Config.init).markInitialized
  obtain ⟨fresh, hfresh⟩ := execAll_completes hq State.reset
  have hreset : BehaveAlike before.response (before.writeState Config.init).markInitialized State.reset :=
    ⟨rfl, (List.append_nil _).symm⟩
  obtain ⟨hstate, hresponse⟩ := hreset.after_execAll ht hfresh
  refine ⟨before, t, fresh, hbefore, ?_, hfresh, hresponse, hstate⟩
  rw [execAll_append, execAll_append, hbefore, andThen_next, execAll_singleton, exec_reset, andThen_next, ht]

/-! ## The bit-wise CRC-32 and the residue (R78) -/

/-- R57, R78: byte by byte the two algorithms make the same steps. -/
theorem updateBytes_eq_bitwiseBytes (s : Word) (bs : List Byte) : updateBytes s bs = bitwiseBytes s bs := by
  induction bs generalizing s with
  | nil => rfl
  | cons b bs ih => rw [updateBytes_cons, bitwiseBytes_cons, ih, updateByte_eq_bitSteps]

theorem crc32_eq_bitwiseCrc32 (bs : List Byte) : crc32 bs = bitwiseCrc32 bs :=
  congrArg checksum (updateBytes_eq_bitwiseBytes Config.init bs)

/-- R59: a stream from `s XOR d` is the stream from `s`, XORed with as many zero bytes from `d`. -/
theorem updateBytes_xor_state (s d : Word) (bs : List Byte) :
    updateBytes (s ^^^ d) bs = updateBytes s bs ^^^ updateBytes d (List.replicate bs.length 0#8) := by
  induction bs generalizing s d with
  | nil => rfl
  | cons b bs ih =>
    have hbyte : updateByte (s ^^^ d) b = updateByte s b ^^^ updateByte d 0#8 := by
      simpa using updateByte_xor s d b 0#8
    rw [updateBytes_cons, hbyte, ih]
    rfl

/-- A byte equal to the low byte of the state looks up the zero entry, so the state is shifted. -/
theorem updateByte_own_low_byte (s : Word) : updateByte s (s.setWidth 8) = s >>> 8 := by
  have hindex : (s ^^^ (s.setWidth 8).setWidth 32).setWidth 8 = 0#8 := by
    rw [BitVec.setWidth_xor, BitVec.setWidth_setWidth_of_le _ (by decide), BitVec.setWidth_eq, BitVec.xor_self]
  have hzero : t256 0#8 = 0#32 := by decide
  rw [updateByte_eq_t256, hindex, hzero, BitVec.zero_xor]

/-- The bytes of a word, least significant first: its low byte, and the bytes of the rest. -/
theorem bytesLittle_toNat_succ (w : Nat) (s : Word) :
    bytesLittle (w + 1) s.toNat = s.setWidth 8 :: bytesLittle w (s >>> 8).toNat := by
  rw [bytesLittle, BitVec.ofNat_toNat, BitVec.toNat_ushiftRight, Nat.shiftRight_eq_div_pow]

/-- A state fed its own low bytes, least significant first, shifts them out. -/
theorem updateBytes_own_bytes (w : Nat) (s : Word) : updateBytes s (bytesLittle w s.toNat) = s >>> (8 * w) := by
  induction w generalizing s with
  | zero => simp [bytesLittle]
  | succ w ih =>
    rw [bytesLittle_toNat_succ, updateBytes_cons, updateByte_own_low_byte, ih, ← BitVec.shiftRight_add, Nat.mul_succ,
      Nat.add_comm]

/-- R78: the residue. The state is its checksum XORed with all-ones: the checksum's bytes clear the one part, and the other
takes four zero bytes. -/
theorem updateBytes_own_checksum (s : Word) : updateBytes s (bytesLittle 4 (checksum s).toNat) = 0xDEBB20E3#32 := by
  have hs : s = checksum s ^^^ Config.xorOut := by rw [← checksum_eq_xor, checksum, not_checksum]
  have hcleared : checksum s >>> 32 = 0#32 := BitVec.ushiftRight_eq_zero (by decide)
  calc updateBytes s (bytesLittle 4 (checksum s).toNat)
      = updateBytes (checksum s ^^^ Config.xorOut) (bytesLittle 4 (checksum s).toNat) := by rw [← hs]
    _ = checksum s >>> 32 ^^^ updateBytes Config.xorOut (List.replicate 4 0#8) := by
      rw [updateBytes_xor_state, updateBytes_own_bytes, bytesLittle_length]
    _ = updateBytes Config.xorOut (List.replicate 4 0#8) := by rw [hcleared, BitVec.zero_xor]
    _ = 0xDEBB20E3#32 := by decide

/-- The customary message, the digits from 1 to 9, taken in by threes (R72, R78). -/
theorem updateBytes_digits_one_to_nine :
    updateBytes Config.init ([0x31#8, 0x32#8, 0x33#8] ++ ([0x34#8, 0x35#8, 0x36#8] ++ [0x37#8, 0x38#8, 0x39#8])) =
      0x340BC6D9#32 := by
  obtain ⟨-, -, -, hfirst⟩ := checkValueOf123
  have hsecond : updateBytes 0x77B79C2D#32 [0x34#8, 0x35#8, 0x36#8] = 0xF68D2C9E#32 := by decide
  have hthird : updateBytes 0xF68D2C9E#32 [0x37#8, 0x38#8, 0x39#8] = 0x340BC6D9#32 := by decide
  calc updateBytes Config.init ([0x31#8, 0x32#8, 0x33#8] ++ ([0x34#8, 0x35#8, 0x36#8] ++ [0x37#8, 0x38#8, 0x39#8]))
      = updateBytes (updateBytes 0x77B79C2D#32 [0x34#8, 0x35#8, 0x36#8]) [0x37#8, 0x38#8, 0x39#8] := by
        rw [updateBytes_append, Config.init, hfirst, updateBytes_append]
    _ = 0x340BC6D9#32 := by rw [hsecond, hthird]

/-- Settles O36: the residue is that of the state the message leaves, whatever it is. -/
theorem checksumIsBitwiseCrc32 : Obligations.ChecksumIsBitwiseCrc32 := by
  refine ⟨crc32_eq_bitwiseCrc32, congrArg checksum updateBytes_digits_one_to_nine, fun bs => ?_⟩
  rw [updateBytes_append]
  exact updateBytes_own_checksum _

end Sys2Proof.Machine
end

section
/-! SUPPORT. The statement of 60_exceptions.md. -/

namespace Sys2Proof.Machine

/-- Settles O19: a command completes as its arm does, a move as the command it decodes to, and `Fault` has no constructor for
a step to answer with. -/
theorem everyCommandCompletes : Obligations.EveryCommandCompletes :=
  ⟨fun _ s hi => exec_completes hi s, fun _ s hm => serve_completes hm s, fun _ f _ => nomatch f⟩

end Sys2Proof.Machine
end

section
/-! SUPPORT. Hardware reset as the host's next move; then the statements of 70_reset_and_hazards.md. -/

namespace Sys2Proof.Machine

/-- R92, R98: hardware reset takes place whether or not a response holds the block. -/
theorem step_hwReset (s : State) (ms : List HostMove) :
    step (s.withInputs (.hwReset :: ms)) = .next (s.hardwareReset.withInputs ms) := by
  have hnext : nextMove (s.withInputs (.hwReset :: ms)).held (s.withInputs (.hwReset :: ms)).inputs =
      some (.hwReset, ms) := nextMove_hwReset _ ms
  rw [step_of_some hnext, serve_hwReset]
  rfl

/-- Settles O38: the step is the hardware reset, and `RESET` writes the same `state` and `phase`. -/
theorem hardwareResetActsBetweenCommands : Obligations.HardwareResetActsBetweenCommands :=
  fun s ms => ⟨step_hwReset s ms, _, exec_reset s, rfl, rfl⟩

/-- The reset state is one that hardware reset leaves. -/
theorem State.reset_hardwareReset : State.reset.hardwareReset = State.reset := rfl

/-- Settles O44: hardware reset leaves a legal state, and the reset state is what it leaves. -/
theorem resetStateIsLegal : Obligations.ResetStateIsLegal := by
  have hlegal : State.reset.hardwareReset.Legal := State.hardwareReset_legal State.reset
  rwa [State.reset_hardwareReset] at hlegal

end Sys2Proof.Machine
end
